-- ==== Sys2Proof/Word.lean ====
section
/-! DEFINITION. The word types of the 80386 (spec R8): a byte is 8 bits, a word 16, a doubleword 32. -/

namespace Sys2Proof

/-- A byte, 8 bits (R8). -/
abbrev Byte := BitVec 8

/-- A word, 16 bits (R8). -/
abbrev Word := BitVec 16

/-- A doubleword, 32 bits (R8). -/
abbrev DWord := BitVec 32

end Sys2Proof
end

