-- ==== Sys2Proof/Config.lean ====
section
/-! DEFINITION. What is fixed for the whole machine: the two values of a size attribute and the decoder's length limit.
The launch parameters of R7 that may differ from run to run (MODE, the default sizes, SEGBASE, MEM, CODE_END) are fields of
State (assumption log entry 6); OPCODE_MAP stands in Decode.lean. The spec leaves no value of an admitted instruction open,
so there is no free value here. -/

namespace Sys2Proof

/-- An operand-size or address-size attribute: "which is either 16 or 32 bits" (R7, R14). -/
inductive Size where
  | s16
  | s32
deriving DecidableEq, Repr

namespace Size

/-- The attribute as a number of bits. -/
def bits : Size → Nat
  | s16 => 16
  | s32 => 32

/-- The other value: `48 - size` (R89, D3). -/
def other : Size → Size
  | s16 => s32
  | s32 => s16

/-- `2^A`: how many offsets an offset space of this size has (R68, R97, R104). -/
def span (A : Size) : Nat := 2 ^ A.bits

end Size

namespace Config

/-- MAX_INSTRUCTION_LENGTH (R7, R82, D26): PRESUMED, the spec marks the number 15 as general knowledge G11 (entry 24). -/
def maxInstructionLength : Nat := 15

/-- The bound that Figure 17-1's boxes give any instruction (R82): no fetch needs a byte past it. -/
def formatBound : Nat := 16

end Config

end Sys2Proof
end

