-- ==== Sys2Proof/Syntax.lean ====
section
/-! DEFINITION. The instructions as data: the rows of spec/opcode_table.json (`Instr`), the fields an instruction is made of
(prefixes, opcode key, address specifier), the operand symbols, and the shape of an OPCODE_MAP entry (R7, R80, R133). -/

namespace Sys2Proof

/-- A segment register (R28): ES = 0, CS = 1, SS = 2, DS = 3, FS = 4, GS = 5. -/
inductive SReg where
  | es
  | cs
  | ss
  | ds
  | fs
  | gs
deriving DecidableEq, Repr

/-- A general register code 0 to 7 (R20, R21, R22), named by its doubleword register. The operand's width says which
register it names: code 4 is ESP, SP or AH. -/
inductive GReg where
  | eax
  | ecx
  | edx
  | ebx
  | esp
  | ebp
  | esi
  | edi
deriving DecidableEq, Repr

/-- The three modes the spec names (R32, R205). -/
inductive Mode where
  | realAddress
  | protectedMode
  | virtual8086
deriving DecidableEq, Repr

/-- The eleven values a prefix byte can have (R84, R85, R86). -/
inductive PrefixByte where
  /-- F3H, spelled REP or REPE/REPZ (conflict C12). -/
  | rep
  /-- F2H, REPNE/REPNZ. -/
  | repne
  /-- F0H, LOCK. -/
  | lock
  /-- 67H, address-size override. -/
  | adSize
  /-- 66H, operand-size override. -/
  | opSize
  /-- 2EH, 36H, 3EH, 26H, 64H, 65H, segment override. -/
  | seg (r : SReg)
deriving DecidableEq, Repr

/-- The four prefix fields of Figure 17-1 (R87). -/
inductive PrefixGroup where
  | instruction
  | addressSize
  | operandSize
  | segmentOverride
deriving DecidableEq, Repr

/-- The key of OPCODE_MAP: one opcode byte, or 0FH and one more (R90, D30). -/
inductive OpcodeKey where
  | one (b : Byte)
  | esc (b : Byte)
deriving DecidableEq, Repr

/-- THE INSTRUCTIONS: one constructor per row of spec/opcode_table.json (R136). CMC is the one row with an opcode (R150).
A prefix row stands for the instructions that BEGIN with its byte (R80: the prefixes are fields of the instruction they
precede): `more` are the prefixes after it in memory order, `op` the opcode. `repeRepz` is the second spelling of the byte
of `rep` (R84, conflict C12; entry 12). -/
inductive Instr where
  /-- F5, CMC. -/
  | cmc
  /-- F3, REP. -/
  | rep (more : List PrefixByte) (op : OpcodeKey)
  /-- F3, REPE/REPZ. -/
  | repeRepz (more : List PrefixByte) (op : OpcodeKey)
  /-- F2, REPNE/REPNZ. -/
  | repneRepnz (more : List PrefixByte) (op : OpcodeKey)
  /-- F0, LOCK. -/
  | lock (more : List PrefixByte) (op : OpcodeKey)
  /-- 2E, CS segment override. -/
  | csOverride (more : List PrefixByte) (op : OpcodeKey)
  /-- 36, SS segment override. -/
  | ssOverride (more : List PrefixByte) (op : OpcodeKey)
  /-- 3E, DS segment override. -/
  | dsOverride (more : List PrefixByte) (op : OpcodeKey)
  /-- 26, ES segment override. -/
  | esOverride (more : List PrefixByte) (op : OpcodeKey)
  /-- 64, FS segment override. -/
  | fsOverride (more : List PrefixByte) (op : OpcodeKey)
  /-- 65, GS segment override. -/
  | gsOverride (more : List PrefixByte) (op : OpcodeKey)
  /-- 66, operand-size override. -/
  | opSizeOverride (more : List PrefixByte) (op : OpcodeKey)
  /-- 67, address-size override. -/
  | adSizeOverride (more : List PrefixByte) (op : OpcodeKey)
deriving DecidableEq, Repr

/-! ## Address specifiers (R92 to R109) -/

/-- The registers a 16-bit form sums (R96), in r/m order 000 to 111. -/
inductive Base16 where
  | bxSi
  | bxDi
  | bpSi
  | bpDi
  | si
  | di
  | bp
  | bx
deriving DecidableEq, Repr

/-- The factor on the index register (R102): ss = 00, 01, 10, 11. -/
inductive Scale where
  | x1
  | x2
  | x4
  | x8
deriving DecidableEq, Repr

/-- A displacement after a form with a base register (R97, R99): mod = 00, 01, 10. `d8` is sign-extended when it is added,
`full` has the address size's own width. -/
inductive Disp (w : Nat) where
  | none
  | d8 (b : Byte)
  | full (v : BitVec w)
deriving DecidableEq, Repr

/-- The r/m operand as the ModR/M byte, the SIB byte and the displacement write it (Tables 17-2, 17-3, 17-4). -/
inductive RmForm where
  /-- mod = 11: a register (R95). -/
  | reg (r : GReg)
  /-- 16-bit addressing with base or index registers (R96, R97). -/
  | base16 (b : Base16) (d : Disp 16)
  /-- 16-bit addressing, mod = 00, r/m = 110: disp16 alone (R96). -/
  | disp16 (d : Word)
  /-- 32-bit addressing, no SIB byte, a base register (R99). -/
  | base32 (b : GReg) (d : Disp 32)
  /-- 32-bit addressing, mod = 00, r/m = 101: disp32 alone (R99). -/
  | disp32 (d : DWord)
  /-- SIB byte with a base register (R102, R103); no index is code 100. -/
  | sib (ss : Scale) (index : Option GReg) (b : GReg) (d : Disp 32)
  /-- SIB byte with base = 101 and mod = 00: disp32 and no base (R103). -/
  | sibDisp32 (ss : Scale) (index : Option GReg) (d : DWord)
deriving DecidableEq, Repr

/-- What the ModR/M byte, the SIB byte and the displacement say together: the reg/opcode field and the r/m form (R106). -/
structure AddrSpec where
  reg : BitVec 3
  rm  : RmForm
deriving DecidableEq, Repr

/-! ## Operand symbols (R116 to R132) and the shape of OPCODE_MAP (R7) -/

/-- The operand symbols of the "Instruction" column. -/
inductive OperandSymbol where
  | rel8 | rel16 | rel32
  | ptr16x16 | ptr16x32
  | r8 | r16 | r32
  | imm8 | imm16 | imm32
  | rm8 | rm16 | rm32
  | m8 | m16 | m32
  | m16x16 | m16x32
  | m16and32 | m16and16 | m32and32
  | moffs8 | moffs16 | moffs32
  | sreg
deriving DecidableEq, Repr

/-- The last field of an instruction (R113, R114, R131, R133); `iwd`, `cwd`, `cdp` are the printed alternatives of which
the first goes with OperandSize 16 and the second with 32. -/
inductive LastField where
  | none
  | ib | iw | id | iwd
  | cb | cw | cd | cp | cwd | cdp
  | moffs
deriving DecidableEq, Repr

/-- What the opcode column and the operand symbols of one form say (R7: has_modrm, reg_use, trailing field, semantics rule),
with the prefixes the form admits (R88). A form with `rm := none` has no ModR/M byte (R92). -/
structure Descriptor where
  /-- the number of the rule that gives the form's meaning -/
  rule        : Nat
  /-- the symbol of the r/m operand -/
  rm          : Option OperandSymbol
  /-- the symbol of the `/r` register operand; none for a `/digit` form -/
  reg         : Option OperandSymbol
  last        : LastField
  admitsSeg   : Bool
  admitsOp    : Bool
  admitsAd    : Bool
deriving DecidableEq, Repr

/-- An entry of OPCODE_MAP: one form, or a `/digit` family whose members the reg field selects (R111, R133). -/
inductive OpcodeEntry where
  | form (d : Descriptor)
  | digits (members : List (BitVec 3 × Descriptor))
deriving DecidableEq, Repr

/-- OPCODE_MAP, a finite map (R7). -/
abbrev OpcodeMap := List (OpcodeKey × OpcodeEntry)

/-- Why bytes are not decoded. Each is a refusal (safe: the model stops where the chip may go on), but for `truncated`. -/
inductive DecodeError where
  /-- the bytes end before the instruction does: raised by every reader of a byte list; `step` turns it into what stopped
  the fetch (safe) -/
  | truncated
  /-- a second prefix of a group already seen: raised by `scanPrefixes` (R88, D4; safe) -/
  | repeatedGroup (p : PrefixByte)
  /-- "opcode not in OPCODE_MAP": raised by `readKey`, `decode`, `decodeWith` (R134, D2; safe) -/
  | opcodeNotInMap (k : OpcodeKey)
  /-- a /digit family with no member for this reg field: raised by `decodeWith` (R133, U4; safe) -/
  | noDigitMember (k : OpcodeKey) (reg : BitVec 3)
  /-- segment register code 6 or 7: raised by `decodeWith` (R28, R132, D24; safe) -/
  | unassignedSReg (code : BitVec 3)
  /-- mod = 11 where the operand symbol is memory-only: raised by `decodeWith` (R95, D14; safe) -/
  | registerForm (sym : OperandSymbol)
  /-- a prefix the form does not admit: raised by `decodeWith` (R88, D5; safe) -/
  | prefixNotAdmitted (p : PrefixByte)
  /-- longer than MAX_INSTRUCTION_LENGTH: raised by `decodeWith`, and by `step` when the whole fetch window is no
  instruction (R82, D26; safe) -/
  | tooLong
deriving DecidableEq, Repr

/-- What the decoder of R133 returns: the form, the prefixes, the attributes, the address specifier, the bytes of the last
field, and the length. -/
structure Decoded where
  key         : OpcodeKey
  desc        : Descriptor
  prefixes    : List PrefixByte
  operandSize : Size
  addressSize : Size
  spec        : Option AddrSpec
  last        : List Byte
  length      : Nat
deriving DecidableEq, Repr

/-! ## Exceptions (R200 to R203) -/

/-- The nine exceptions of Table 17-6 (R201). -/
inductive ExceptionName where
  | ud
  | nm
  | df
  | ts
  | np
  | ss
  | gp
  | pf
  | mf
deriving DecidableEq, Repr

end Sys2Proof
end

