-- ==== Sys2Proof/Machine/State.lean ====
section
/-! DEFINITION. The state of the machine as plain data (10_state.md, R240), the reasons a step can stop (R207), and the state
after reset. -/

namespace Sys2Proof.Machine

/-- The eight 32-bit cells of the general registers (R20, R23). -/
structure Gprs where
  eax : DWord
  ecx : DWord
  edx : DWord
  ebx : DWord
  esp : DWord
  ebp : DWord
  esi : DWord
  edi : DWord
deriving DecidableEq, Repr

/-- The six segment registers, 16 bits each (R28; the width PRESUMED, G4: entry 26). -/
structure SRegs where
  es : Word
  cs : Word
  ss : Word
  ds : Word
  fs : Word
  gs : Word
deriving DecidableEq, Repr

/-- SEGBASE: the base address of the segment each segment register selects (R68, R69). -/
structure SegBases where
  es : DWord
  cs : DWord
  ss : DWord
  ds : DWord
  fs : DWord
  gs : DWord
deriving DecidableEq, Repr

/-- A descriptor table register: a 16-bit limit field and a 32-bit base field (R30). -/
structure DescTable where
  limit : Word
  base  : DWord
deriving DecidableEq, Repr

/-- The launch parameters, constant over a run (R7, R33, R240; held in State: entry 6). -/
structure Launch where
  mode               : Mode
  defaultOperandSize : Size
  defaultAddressSize : Size
  segBase            : SegBases
  codeEnd            : DWord
deriving DecidableEq, Repr

/-- MEM, a partial map from byte address to byte (R61): the listed addresses are its domain, rising (`Memory.wf`). An
address that is not listed has no value. -/
abbrev Memory := List Host.Cell

/-- The state of the machine (10_state.md section 7, R240). -/
structure State where
  gprs   : Gprs
  pc     : DWord
  cf     : Bool
  sregs  : SRegs
  gdtr   : DescTable
  idtr   : DescTable
  mem    : Memory
  launch : Launch
deriving DecidableEq, Repr

/-- Why the machine stops with a fault. -/
inductive Fault where
  /-- An exception of Table 17-6, the spec's terminal fault outcome (R9, R207, D15): its name, interrupt number, optional error
  code, and the pc of the instruction. Raised by `raiseException`, which no instruction of the table calls (R219). Safe: the
  model stops where the chip enters a handler (entry 10). -/
  | exception (name : ExceptionName) (number : Nat) (code : Option Nat) (pc : DWord)
  /-- A memory access outside the domain of MEM, the spec's "stuck" (R61, R207, D10). Raised by the memory reads and writes and
  by the fetch. Safe: the model stops where the chip goes on (entry 9). -/
  | stuck (addr : Nat)
  /-- pc = CODE_END at the start of a step: the run has ended, the spec's Final outcome (R247, R248). Raised by `step`. Safe: the
  model stops where the chip goes on (entry 8). -/
  | runEnded
deriving DecidableEq, Repr

/-- Why the machine refuses: it has no meaning to give. Every refusal is safe: the model stops where the chip may go on. -/
inductive Refusal where
  /-- An instruction whose meaning is not written yet: an arm of `exec` only. Safe. -/
  | notModelled (mnemonic : String)
  /-- The bytes at pc do not decode (R88, R133, R134), or the opcode after a prefix is not in OPCODE_MAP: raised by `step` and by
  the arms of the prefix rows. Safe. -/
  | undecodable (e : DecodeError)
  /-- "prefix has no defined effect" on the instruction it precedes (R88, R151, D5): raised by the arms of the prefix rows,
  with the first prefix. Safe (entry 13). -/
  | prefixWithoutEffect (p : PrefixByte)
  /-- An access whose `off + n` exceeds `2^A` (R68, D11): raised by the memory reads and writes and by the fetch. Safe. -/
  | pastOffsetSpace
  /-- "instruction reaches the end of the offset space" (R26, R248, D23): raised by `step`. Safe. -/
  | endOfOffsetSpace
  /-- "instruction straddles CODE_END" (R247, R248, D22): raised by `step`. Safe. -/
  | straddlesCodeEnd
  /-- `BIT[register, k]` with k outside the register (R24, D31), or a memory bit string that begins below offset 0 (entry 23):
  raised by the BIT functions. Safe. -/
  | bitOffsetOutside
deriving DecidableEq, Repr

/-- What stops the evaluation of an operand: a fault or a refusal. -/
inductive Stop where
  | fault (r : Fault)
  | refuse (r : Refusal)
deriving DecidableEq, Repr

/-- The state after reset. The spec gives no reset value (R36, R240). PRESUMED, the 80386's by G17 and G9 (entry 2): pc, CF,
the segment registers and bases, IDTR, the mode and the default sizes. DESIGN CHOICE: the general registers and GDTR zero
(entries 1 and 3), CODE_END past every 16-bit code offset (entry 4), memory with nothing listed (entry 5). -/
def State.reset : State where
  gprs   := { eax := 0, ecx := 0, edx := 0, ebx := 0, esp := 0, ebp := 0, esi := 0, edi := 0 }
  pc     := 0x0000FFF0
  cf     := false
  sregs  := { es := 0, cs := 0xF000, ss := 0, ds := 0, fs := 0, gs := 0 }
  gdtr   := { limit := 0, base := 0 }
  idtr   := { limit := 0x03FF, base := 0 }
  mem    := []
  launch :=
    { mode := .realAddress, defaultOperandSize := .s16, defaultAddressSize := .s16,
      segBase := { es := 0, cs := 0xFFFF0000, ss := 0, ds := 0, fs := 0, gs := 0 },
      codeEnd := 0x00010000 }

end Sys2Proof.Machine
end

