-- ==== Sys2Proof/Machine/Flags.lean ====
section
/-! DEFINITION. The flag computations the spec gives: one, the complement of the carry flag (R27, R150). -/

namespace Sys2Proof.Machine

/-- `CF <- NOT CF` (R150); all flags not listed are unchanged, and CF is the one flag the spec names (R27). -/
def State.complementCarry (s : State) : State := { s with cf := !s.cf }

end Sys2Proof.Machine
end

