-- ==== Sys2Proof/WellFormed.lean ====
section
/-! DEFINITION. Which terms are instructions the format can write: at most one prefix of a group (R87), an opcode key that a
decoder would read as a key (R90, R133), and address specifiers that have a ModR/M and SIB value (Tables 17-2 to 17-4). -/

namespace Sys2Proof

/-- The field of Figure 17-1 a prefix byte belongs to (R84 to R87). -/
def PrefixByte.group : PrefixByte → PrefixGroup
  | .rep    => .instruction
  | .repne  => .instruction
  | .lock   => .instruction
  | .adSize => .addressSize
  | .opSize => .operandSize
  | .seg _  => .segmentOverride

/-- "0 OR 1" bytes of each prefix field (R87). -/
def onePerGroup : List PrefixByte → Bool
  | []      => true
  | p :: ps => !(ps.map PrefixByte.group).contains p.group && onePerGroup ps

/-- The eleven distinct byte values of the prefix codes (R87). -/
def prefixValues : List Byte :=
  [0xF3, 0xF2, 0xF0, 0x67, 0x66, 0x2E, 0x36, 0x3E, 0x26, 0x64, 0x65]

/-- A key the decoder of R133 can read: a one-byte key is no prefix value and not the escape 0FH. -/
def OpcodeKey.wf : OpcodeKey → Bool
  | .one b => !prefixValues.contains b && b != 0x0F
  | .esc _ => true

/-- The prefixes of an instruction, in memory order (R80). -/
def Instr.prefixes : Instr → List PrefixByte
  | .cmc                 => []
  | .rep more _            => .rep :: more
  | .repeRepz more _       => .rep :: more
  | .repneRepnz more _     => .repne :: more
  | .lock more _           => .lock :: more
  | .csOverride more _     => .seg .cs :: more
  | .ssOverride more _     => .seg .ss :: more
  | .dsOverride more _     => .seg .ds :: more
  | .esOverride more _     => .seg .es :: more
  | .fsOverride more _     => .seg .fs :: more
  | .gsOverride more _     => .seg .gs :: more
  | .opSizeOverride more _ => .opSize :: more
  | .adSizeOverride more _ => .adSize :: more

/-- The opcode of an instruction (R90). -/
def Instr.key : Instr → OpcodeKey
  | .cmc                 => .one 0xF5
  | .rep _ op            => op
  | .repeRepz _ op       => op
  | .repneRepnz _ op     => op
  | .lock _ op           => op
  | .csOverride _ op     => op
  | .ssOverride _ op     => op
  | .dsOverride _ op     => op
  | .esOverride _ op     => op
  | .fsOverride _ op     => op
  | .gsOverride _ op     => op
  | .opSizeOverride _ op => op
  | .adSizeOverride _ op => op

/-- An instruction the format can write. -/
def Instr.wf (i : Instr) : Bool := onePerGroup i.prefixes && i.key.wf

/-- An index register the SIB byte can name: every one but ESP, whose code 100 means "none" (R102). -/
def indexWf : Option GReg → Bool
  | some .esp => false
  | _         => true

/-- A form that Tables 17-2 to 17-4 give a byte value, for the address size A. -/
def RmForm.wf (A : Size) : RmForm → Bool
  | .reg _             => true
  -- mod = 00, r/m = 110 is disp16 alone, so BP has no form without a displacement (R96)
  | .base16 b d        => A == .s16 && !(b == .bp && d == .none)
  | .disp16 _          => A == .s16
  -- r/m = 100 is the SIB form, and mod = 00, r/m = 101 is disp32 alone (R99)
  | .base32 b d        => A == .s32 && b != .esp && !(b == .ebp && d == .none)
  | .disp32 _          => A == .s32
  -- base = 101 with mod = 00 is disp32 with no base (R103)
  | .sib _ index b d   => A == .s32 && indexWf index && !(b == .ebp && d == .none)
  | .sibDisp32 _ index _ => A == .s32 && indexWf index

/-- An address specifier some bytes encode under the address size A; the reg field is free (R94). -/
def AddrSpec.wf (A : Size) (sp : AddrSpec) : Bool := sp.rm.wf A

end Sys2Proof
end

