-- ==== Sys2Proof/Decode.lean ====
section
/-! DEFINITION. Bytes to instructions and back: the prefix scan (R84 to R88), the opcode key (R90), OPCODE_MAP (R134, R136),
the address specifier (R92 to R109), the decoder of R133 over any opcode map, the model's decoder `decode` to `Instr`, and the
encoders, written from the same tables. -/

namespace Sys2Proof

/-! ## Bit fields and byte order -/

/-- Two bytes at increasing addresses as a word, low-order byte first (R53). -/
def leWord (b0 b1 : Byte) : Word := b1 ++ b0

/-- Four bytes at increasing addresses as a doubleword, low-order byte first (R53). -/
def leDWord (b0 b1 b2 b3 : Byte) : DWord := b3 ++ b2 ++ b1 ++ b0

/-- Byte k of a value, byte 0 the low-order one (R53). -/
def byteOf {w : Nat} (v : BitVec w) (k : Nat) : Byte := v.extractLsb' (8 * k) 8

/-- A word's bytes at increasing addresses (R53). -/
def wordBytes (v : Word) : List Byte := [byteOf v 0, byteOf v 1]

/-- A doubleword's bytes at increasing addresses (R53). -/
def dwordBytes (v : DWord) : List Byte := [byteOf v 0, byteOf v 1, byteOf v 2, byteOf v 3]

/-- ModR/M bits 7:6 (R93); SIB ss (R101). -/
def topField (b : Byte) : BitVec 2 := b.extractLsb' 6 2

/-- ModR/M bits 5:3, reg/opcode (R93); SIB index (R101). -/
def midField (b : Byte) : BitVec 3 := b.extractLsb' 3 3

/-- ModR/M bits 2:0, r/m (R93); SIB base (R101). -/
def lowField (b : Byte) : BitVec 3 := b.extractLsb' 0 3

/-- The byte `top * 64 + mid * 8 + low` (R93, R101). -/
def fieldsByte (top : BitVec 2) (mid low : BitVec 3) : Byte := top ++ mid ++ low

/-! ## Register codes -/

/-- The register of a three-bit code (R20, R115). -/
def GReg.ofCode (c : BitVec 3) : GReg :=
  match c.toNat with
  | 0 => .eax
  | 1 => .ecx
  | 2 => .edx
  | 3 => .ebx
  | 4 => .esp
  | 5 => .ebp
  | 6 => .esi
  | _ => .edi

/-- The code of a register (R20, R115). -/
def GReg.code : GReg → BitVec 3
  | .eax => 0
  | .ecx => 1
  | .edx => 2
  | .ebx => 3
  | .esp => 4
  | .ebp => 5
  | .esi => 6
  | .edi => 7

/-- The segment register of a code; 6 and 7 are assigned to none (R28, R132). -/
def SReg.ofCode (c : BitVec 3) : Option SReg :=
  match c.toNat with
  | 0 => some .es
  | 1 => some .cs
  | 2 => some .ss
  | 3 => some .ds
  | 4 => some .fs
  | 5 => some .gs
  | _ => none

/-- The code of a segment register (R28). -/
def SReg.code : SReg → BitVec 3
  | .es => 0
  | .cs => 1
  | .ss => 2
  | .ds => 3
  | .fs => 4
  | .gs => 5

/-- The 16-bit r/m codes (R96). -/
def Base16.ofCode (c : BitVec 3) : Base16 :=
  match c.toNat with
  | 0 => .bxSi
  | 1 => .bxDi
  | 2 => .bpSi
  | 3 => .bpDi
  | 4 => .si
  | 5 => .di
  | 6 => .bp
  | _ => .bx

/-- The r/m code of a 16-bit form (R96). -/
def Base16.code : Base16 → BitVec 3
  | .bxSi => 0
  | .bxDi => 1
  | .bpSi => 2
  | .bpDi => 3
  | .si   => 4
  | .di   => 5
  | .bp   => 6
  | .bx   => 7

/-- The scale of an ss field (R102). -/
def Scale.ofCode (c : BitVec 2) : Scale :=
  match c.toNat with
  | 0 => .x1
  | 1 => .x2
  | 2 => .x4
  | _ => .x8

/-- The ss field of a scale (R102). -/
def Scale.code : Scale → BitVec 2
  | .x1 => 0
  | .x2 => 1
  | .x4 => 2
  | .x8 => 3

/-- The index field: code 100 is "none" for every ss (R102). -/
def indexOfCode (c : BitVec 3) : Option GReg := if c = 4 then none else some (GReg.ofCode c)

/-- The code of an index (R102). -/
def indexCode : Option GReg → BitVec 3
  | none   => 4
  | some r => r.code

/-- `XX +rb`, `XX +rw`, `XX +rd`: the code is the opcode byte less XX, by subtraction, when that is 0 to 7 (R115). -/
def regOfOpcode (xx opcode : Byte) : Option GReg :=
  if xx.toNat ≤ opcode.toNat ∧ opcode.toNat - xx.toNat ≤ 7
  then some (GReg.ofCode (BitVec.ofNat 3 (opcode.toNat - xx.toNat))) else none

/-- The opcode byte of `XX +rb`, `XX +rw`, `XX +rd` for a register: the code is added to XX (R115). -/
def opcodeWithReg (xx : Byte) (r : GReg) : Byte := xx + r.code.setWidth 8

/-! ## Prefixes -/

/-- The byte of a prefix (R84, R85, R86). -/
def PrefixByte.byte : PrefixByte → Byte
  | .rep     => 0xF3
  | .repne   => 0xF2
  | .lock    => 0xF0
  | .adSize  => 0x67
  | .opSize  => 0x66
  | .seg .cs => 0x2E
  | .seg .ss => 0x36
  | .seg .ds => 0x3E
  | .seg .es => 0x26
  | .seg .fs => 0x64
  | .seg .gs => 0x65

/-- The prefix of a byte value, if it is one of the eleven (R84, R85, R86). -/
def PrefixByte.ofByte (b : Byte) : Option PrefixByte :=
  match b.toNat with
  | 0xF3 => some .rep
  | 0xF2 => some .repne
  | 0xF0 => some .lock
  | 0x67 => some .adSize
  | 0x66 => some .opSize
  | 0x2E => some (.seg .cs)
  | 0x36 => some (.seg .ss)
  | 0x3E => some (.seg .ds)
  | 0x26 => some (.seg .es)
  | 0x64 => some (.seg .fs)
  | 0x65 => some (.seg .gs)
  | _    => none

/-- The prefix bytes at the front, in order, and the bytes after them; a second prefix of a group in `seen` is refused
(R87, R88, R133). -/
def scanPrefixes (seen : List PrefixGroup) : List Byte → Except DecodeError (List PrefixByte × List Byte)
  | []        => .error .truncated
  | b :: rest =>
    match PrefixByte.ofByte b with
    | none   => .ok ([], b :: rest)
    | some p =>
      if seen.contains p.group then .error (.repeatedGroup p)
      else
        match scanPrefixes (p.group :: seen) rest with
        | .ok (ps, left) => .ok (p :: ps, left)
        | .error e       => .error e

/-- The operand-size attribute: the default, or the other size with a 66H prefix (R89, D3). -/
def operandSizeOf (default : Size) (ps : List PrefixByte) : Size :=
  if ps.contains .opSize then default.other else default

/-- The address-size attribute: the default, or the other size with a 67H prefix (R89, D3). -/
def addressSizeOf (default : Size) (ps : List PrefixByte) : Size :=
  if ps.contains .adSize then default.other else default

/-- The segment of a memory operand: the override's, or the default one (R57, R85). -/
def segmentOf (default : SReg) : List PrefixByte → SReg
  | []             => default
  | .seg r :: _    => r
  | .rep :: ps     => segmentOf default ps
  | .repne :: ps   => segmentOf default ps
  | .lock :: ps    => segmentOf default ps
  | .adSize :: ps  => segmentOf default ps
  | .opSize :: ps  => segmentOf default ps

/-! ## The opcode -/

/-- Whether a map has a two-byte key. -/
def OpcodeMap.hasEscape (map : OpcodeMap) : Bool :=
  map.any fun (k, _) =>
    match k with
    | .one _ => false
    | .esc _ => true

/-- One opcode byte, or 0FH and one more (R90, D30; PRESUMED, G10: entry 26). Where the bytes end after 0FH, a map with no two-byte key
refuses it as an opcode outside the map ("0FH is refused either way", D30; R134, R248); only a map that has one needs the byte after
it (R133; the reading of the two texts together is entry 35). -/
def readKey (map : OpcodeMap) : List Byte → Except DecodeError (OpcodeKey × List Byte)
  | []        => .error .truncated
  | b :: rest =>
    if b = 0x0F then
      match rest with
      | []          => .error (if OpcodeMap.hasEscape map then .truncated else .opcodeNotInMap (.one 0x0F))
      | b2 :: rest2 => .ok (.esc b2, rest2)
    else .ok (.one b, rest)

/-- The bytes of a key (R90). -/
def OpcodeKey.bytes : OpcodeKey → List Byte
  | .one b => [b]
  | .esc b => [0x0F, b]

/-- The form of CMC: the bare opcode, no ModR/M byte, no last field, no prefix admitted (R150, R151). -/
def cmcDescriptor : Descriptor :=
  { rule := 150, rm := none, reg := none, last := .none, admitsSeg := false, admitsOp := false, admitsAd := false }

/-- OPCODE_MAP at its default: exactly one entry, F5 (R7, R134, R136, D2). -/
def opcodeMap : OpcodeMap := [(.one 0xF5, .form cmcDescriptor)]

/-- The entry of a key, if it is in the map. -/
def lookupKey : OpcodeMap → OpcodeKey → Option OpcodeEntry
  | [], _               => none
  | (k', e) :: rest, k => if k' = k then some e else lookupKey rest k

/-- The instruction with no prefix whose meaning a rule gives (R7: the map's "semantics rule id"). -/
def instrOfRule : Nat → Option Instr
  | 150 => some .cmc
  | _   => none

/-- The instruction with no prefix that a map entry stands for. -/
def instrOfEntry : OpcodeEntry → Option Instr
  | .form d    => instrOfRule d.rule
  | .digits _  => none

/-- The instruction that begins with a prefix byte (R80; entries 11 and 12). -/
def instrOfFirst (p : PrefixByte) (more : List PrefixByte) (op : OpcodeKey) : Instr :=
  match p with
  | .rep     => .rep more op
  | .repne   => .repneRepnz more op
  | .lock    => .lock more op
  | .adSize  => .adSizeOverride more op
  | .opSize  => .opSizeOverride more op
  | .seg .cs => .csOverride more op
  | .seg .ss => .ssOverride more op
  | .seg .ds => .dsOverride more op
  | .seg .es => .esOverride more op
  | .seg .fs => .fsOverride more op
  | .seg .gs => .gsOverride more op

/-- THE MODEL'S DECODER: an instruction of `Instr` and its length, from the bytes at the code offset (R133, R248). Total on
any bytes; it rejects by name. A prefixed instruction is read to its opcode: whether the map knows that opcode, and whether
the form admits the prefixes, is decided by the arm of its first prefix (`prefixRefusal`), with the same refusals. -/
def decode (bytes : List Byte) : Except DecodeError (Instr × Nat) :=
  match scanPrefixes [] bytes with
  | .error e       => .error e
  | .ok (ps, left) =>
    match readKey opcodeMap left with
    | .error e    => .error e
    | .ok (op, _) =>
      match ps with
      | p :: more => .ok (instrOfFirst p more op, ps.length + op.bytes.length)
      | []        =>
        match (lookupKey opcodeMap op).bind instrOfEntry with
        | none   => .error (.opcodeNotInMap op)
        | some i => .ok (i, op.bytes.length)

/-! ## The address specifier -/

/-- Two bytes at the front, as a word (R53). -/
def takeWord : List Byte → Option (Word × List Byte)
  | b0 :: b1 :: rest => some (leWord b0 b1, rest)
  | _                => none

/-- Four bytes at the front, as a doubleword (R53). -/
def takeDWord : List Byte → Option (DWord × List Byte)
  | b0 :: b1 :: b2 :: b3 :: rest => some (leDWord b0 b1 b2 b3, rest)
  | _                            => none

/-- The displacement mod calls for after a form with a register: none, disp8, or one of full width (R97, R99). -/
def takeDisp {w : Nat} (full : List Byte → Option (BitVec w × List Byte)) (md : BitVec 2) (bytes : List Byte) :
    Option (Disp w × List Byte) :=
  if md = 0 then some (.none, bytes)
  else if md = 1 then
    match bytes with
    | b :: rest => some (.d8 b, rest)
    | []        => none
  else (full bytes).map fun (v, rest) => (.full v, rest)

/-- The r/m form with 16-bit addressing, mod not 11 (R96, R97, Table 17-2). -/
def takeForm16 (md : BitVec 2) (rm : BitVec 3) (bytes : List Byte) : Option (RmForm × List Byte) :=
  if md = 0 ∧ rm = 6 then (takeWord bytes).map fun (d, rest) => (.disp16 d, rest)
  else (takeDisp takeWord md bytes).map fun (d, rest) => (.base16 (Base16.ofCode rm) d, rest)

/-- The r/m form with 32-bit addressing, mod not 11 (R99 to R103, Tables 17-3 and 17-4). -/
def takeForm32 (md : BitVec 2) (rm : BitVec 3) (bytes : List Byte) : Option (RmForm × List Byte) :=
  if rm = 4 then
    match bytes with
    | []        => none
    | s :: rest =>
      if md = 0 ∧ lowField s = 5 then
        (takeDWord rest).map fun (d, left) => (.sibDisp32 (Scale.ofCode (topField s)) (indexOfCode (midField s)) d, left)
      else
        (takeDisp takeDWord md rest).map fun (d, left) =>
          (.sib (Scale.ofCode (topField s)) (indexOfCode (midField s)) (GReg.ofCode (lowField s)) d, left)
  else if md = 0 ∧ rm = 5 then (takeDWord bytes).map fun (d, rest) => (.disp32 d, rest)
  else (takeDisp takeDWord md bytes).map fun (d, rest) => (.base32 (GReg.ofCode rm) d, rest)

/-- The address specifier at the front of the bytes and the bytes after it: the syntax half of DecodeAddrSpec (R106). None
only where the bytes run out. -/
def takeAddrSpec (A : Size) : List Byte → Option (AddrSpec × List Byte)
  | []        => none
  | m :: rest =>
    if topField m = 3 then some (⟨midField m, .reg (GReg.ofCode (lowField m))⟩, rest)
    else
      (match A with
        | .s16 => takeForm16 (topField m) (lowField m) rest
        | .s32 => takeForm32 (topField m) (lowField m) rest).map
        fun (f, left) => (⟨midField m, f⟩, left)

/-- The mod field of a displacement after a register form (R97, R99). -/
def Disp.md {w : Nat} : Disp w → BitVec 2
  | .none   => 0
  | .d8 _   => 1
  | .full _ => 2

/-- The bytes of a displacement (R53, R97, R99). -/
def Disp.bytes {w : Nat} (full : BitVec w → List Byte) : Disp w → List Byte
  | .none   => []
  | .d8 b   => [b]
  | .full v => full v

/-- The ModR/M byte, the SIB byte and the displacement of an address specifier (Tables 17-2, 17-3, 17-4). -/
def encodeAddrSpec (sp : AddrSpec) : List Byte :=
  match sp.rm with
  | .reg r             => [fieldsByte 3 sp.reg r.code]
  | .base16 b d        => fieldsByte d.md sp.reg b.code :: d.bytes wordBytes
  | .disp16 d          => fieldsByte 0 sp.reg 6 :: wordBytes d
  | .base32 b d        => fieldsByte d.md sp.reg b.code :: d.bytes dwordBytes
  | .disp32 d          => fieldsByte 0 sp.reg 5 :: dwordBytes d
  | .sib ss x b d      => fieldsByte d.md sp.reg 4 :: fieldsByte ss.code (indexCode x) b.code :: d.bytes dwordBytes
  | .sibDisp32 ss x d  => fieldsByte 0 sp.reg 4 :: fieldsByte ss.code (indexCode x) 5 :: dwordBytes d

/-! ## The decoder of R133, over any opcode map -/

/-- How many bytes the last field takes (R113, R114, R133). -/
def LastField.size (op ad : Size) : LastField → Nat
  | .none  => 0
  | .ib    => 1
  | .iw    => 2
  | .id    => 4
  | .iwd   => match op with | .s16 => 2 | .s32 => 4
  | .cb    => 1
  | .cw    => 2
  | .cd    => 4
  | .cp    => 6
  | .cwd   => match op with | .s16 => 2 | .s32 => 4
  | .cdp   => match op with | .s16 => 4 | .s32 => 6
  | .moffs => match ad with | .s16 => 2 | .s32 => 4

/-- An operand symbol that means a memory operand only (R95, R129, R130). -/
def OperandSymbol.memoryOnly : OperandSymbol → Bool
  | .m16x16   => true
  | .m16x32   => true
  | .m16and32 => true
  | .m16and16 => true
  | .m32and32 => true
  | _         => false

/-- The bytes of a memory operand of a symbol (R52). -/
def OperandSymbol.memBytes : OperandSymbol → Option Nat
  | .rm8      => some 1
  | .m8       => some 1
  | .moffs8   => some 1
  | .rm16     => some 2
  | .m16      => some 2
  | .moffs16  => some 2
  | .rm32     => some 4
  | .m32      => some 4
  | .moffs32  => some 4
  | .m16x16   => some 4
  | .m16x32   => some 6
  | .m16and16 => some 4
  | .m32and32 => some 8
  | .m16and32 => some 6
  | _         => none

/-- Whether a form admits a prefix; F3H, F2H and F0H no form of the spec admits (R88, D5). -/
def Descriptor.admits (d : Descriptor) : PrefixByte → Bool
  | .rep    => false
  | .repne  => false
  | .lock   => false
  | .adSize => d.admitsAd
  | .opSize => d.admitsOp
  | .seg _  => d.admitsSeg

/-- Whether a form has a ModR/M byte (R92). -/
def OpcodeEntry.hasModRM : OpcodeEntry → Bool
  | .form d   => d.rm.isSome
  | .digits _ => true

/-- The member of a /digit family for a reg field (R111, R133). -/
def digitMember : List (BitVec 3 × Descriptor) → BitVec 3 → Option Descriptor
  | [], _               => none
  | (n, d) :: rest, reg => if n = reg then some d else digitMember rest reg

/-- The form of an entry for a reg field (R111, R133). -/
def OpcodeEntry.select (k : OpcodeKey) (reg : BitVec 3) : OpcodeEntry → Except DecodeError Descriptor
  | .form d    => .ok d
  | .digits ms =>
    match digitMember ms reg with
    | some d => .ok d
    | none   => .error (.noDigitMember k reg)

/-- The address specifier of an entry that has one (R133). -/
def takeSpec (A : Size) (e : OpcodeEntry) (bytes : List Byte) : Except DecodeError (Option AddrSpec × List Byte) :=
  if e.hasModRM then
    match takeAddrSpec A bytes with
    | some (sp, left) => .ok (some sp, left)
    | none            => .error .truncated
  else .ok (none, bytes)

/-- What a form refuses of its address specifier: Sreg codes 6 and 7 in the reg field (R28, R132; in the reg field by G4,
entry 31), and mod = 11 for a memory-only operand (R95). -/
def Descriptor.specRefusal (d : Descriptor) (sp : AddrSpec) : Option DecodeError :=
  if d.reg = some .sreg ∧ SReg.ofCode sp.reg = none then some (.unassignedSReg sp.reg)
  else
    match d.rm, sp.rm with
    | some sym, .reg _ => if sym.memoryOnly then some (.registerForm sym) else none
    | _, _             => none

/-- What a form refuses of a decoded instruction, in the order of R133: the specifier, the length, the prefixes. -/
def Descriptor.refusal (d : Descriptor) (spec : Option AddrSpec) (ps : List PrefixByte) (length : Nat) : Option DecodeError :=
  match spec.bind d.specRefusal with
  | some e => some e
  | none   =>
    if Config.maxInstructionLength < length then some .tooLong
    else (ps.find? fun p => !d.admits p).map .prefixNotAdmitted

/-- `Decode(pc)` of R133 over the bytes at the code offset: an opcode map and the default sizes give the form, the
attributes, the address specifier, the last field's bytes and the length. -/
def decodeWith (map : OpcodeMap) (defaultOp defaultAd : Size) (bytes : List Byte) : Except DecodeError Decoded := do
  let (ps, b1) ← scanPrefixes [] bytes
  let (key, b2) ← readKey map b1
  match lookupKey map key with
  | none => .error (.opcodeNotInMap key)
  | some e =>
    let op := operandSizeOf defaultOp ps
    let ad := addressSizeOf defaultAd ps
    let (spec, b3) ← takeSpec ad e b2
    let d ← e.select key ((spec.map AddrSpec.reg).getD 0)
    let n := d.last.size op ad
    if b3.length < n then .error .truncated
    else
      let length := bytes.length - b3.length + n
      match d.refusal spec ps length with
      | some err => .error err
      | none     =>
        .ok { key := key, desc := d, prefixes := ps, operandSize := op, addressSize := ad, spec := spec,
              last := b3.take n, length := length }

/-! ## The encoder -/

/-- The bytes of an instruction: its prefixes in their order, then its opcode (R80, R90, R110; table rows of R136). -/
def encode : Instr → List Byte
  | .cmc                    => [0xF5]
  | .rep more op            => 0xF3 :: (more.map PrefixByte.byte ++ op.bytes)
  | .repeRepz more op       => 0xF3 :: (more.map PrefixByte.byte ++ op.bytes)
  | .repneRepnz more op     => 0xF2 :: (more.map PrefixByte.byte ++ op.bytes)
  | .lock more op           => 0xF0 :: (more.map PrefixByte.byte ++ op.bytes)
  | .csOverride more op     => 0x2E :: (more.map PrefixByte.byte ++ op.bytes)
  | .ssOverride more op     => 0x36 :: (more.map PrefixByte.byte ++ op.bytes)
  | .dsOverride more op     => 0x3E :: (more.map PrefixByte.byte ++ op.bytes)
  | .esOverride more op     => 0x26 :: (more.map PrefixByte.byte ++ op.bytes)
  | .fsOverride more op     => 0x64 :: (more.map PrefixByte.byte ++ op.bytes)
  | .gsOverride more op     => 0x65 :: (more.map PrefixByte.byte ++ op.bytes)
  | .opSizeOverride more op => 0x66 :: (more.map PrefixByte.byte ++ op.bytes)
  | .adSizeOverride more op => 0x67 :: (more.map PrefixByte.byte ++ op.bytes)

/-- The spelling the decoder gives: REPE/REPZ is a second spelling of the byte of REP (R84, conflict C12; entry 12). -/
def Instr.spelling : Instr → Instr
  | .repeRepz more op => .rep more op
  | i                 => i

/-! ## The host's table words -/

/-- The bytes of a table word: `nbits` bits of w, bit 0 the least significant bit of the first byte, and zeros up to the
longest instruction. -/
def tableBytes (nbits w : Nat) : List Byte :=
  (List.range Config.maxInstructionLength).map fun k => BitVec.ofNat 8 ((w % 2 ^ nbits) / 2 ^ (8 * k))

/-- The instruction the decoder reads from a table word. -/
def decodeTableWord (nbits w : Nat) : Option Instr :=
  match decode (tableBytes nbits w) with
  | .ok (i, _) => some i
  | .error _   => none

end Sys2Proof
end

