-- ==== Sys2Proof/Machine/Ops.lean ====
section
/-! DEFINITION. The named operations over registers and memory: the general registers in their three widths (R20 to R23), the
segment registers (R28), the memory primitives (R52 to R54, R61, R68), taking an exception (R200 to R207), advancing the pc (R26). -/

namespace Sys2Proof.Machine

/-- The outcome of a step that evaluates an operand or an operation. -/
def Stop.outcome : Stop → Host.Outcome State Fault Refusal
  | .fault r  => .fault r
  | .refuse r => .refused r

/-! ## General registers -/

/-- The doubleword register of a code (R20). -/
def Gprs.get (g : Gprs) : GReg → DWord
  | .eax => g.eax
  | .ecx => g.ecx
  | .edx => g.edx
  | .ebx => g.ebx
  | .esp => g.esp
  | .ebp => g.ebp
  | .esi => g.esi
  | .edi => g.edi

/-- Writing the doubleword register of a code (R20). -/
def Gprs.set (g : Gprs) (r : GReg) (v : DWord) : Gprs :=
  match r with
  | .eax => { g with eax := v }
  | .ecx => { g with ecx := v }
  | .edx => { g with edx := v }
  | .ebx => { g with ebx := v }
  | .esp => { g with esp := v }
  | .ebp => { g with ebp := v }
  | .esi => { g with esi := v }
  | .edi => { g with edi := v }

/-- `r32[i]` (R9, R20). -/
def State.r32 (s : State) (r : GReg) : DWord := s.gprs.get r

/-- `r32[i] <- v` (R9, R20). -/
def State.setR32 (s : State) (r : GReg) (v : DWord) : State := { s with gprs := s.gprs.set r v }

/-- `r16[i]`: bits 15:0 of `r32[i]` (R21, R23; PRESUMED, G2: entry 14). -/
def State.r16 (s : State) (r : GReg) : Word := (s.r32 r).extractLsb' 0 16

/-- `r16[i] <- v` leaves bits 31:16 unchanged (R23). -/
def State.setR16 (s : State) (r : GReg) (v : Word) : State := s.setR32 r ((s.r32 r).extractLsb' 16 16 ++ v)

/-- The cell a byte register lies in: codes 4 to 7 (AH, CH, DH, BH) lie in EAX, ECX, EDX, EBX (R22, R23). -/
def GReg.byteCell : GReg → GReg
  | .eax => .eax
  | .ecx => .ecx
  | .edx => .edx
  | .ebx => .ebx
  | .esp => .eax
  | .ebp => .ecx
  | .esi => .edx
  | .edi => .ebx

/-- Whether a byte code names bits 15:8 of its cell (AH, CH, DH, BH) rather than bits 7:0 (R23). -/
def GReg.byteHigh : GReg → Bool
  | .esp => true
  | .ebp => true
  | .esi => true
  | .edi => true
  | _    => false

/-- `r8[i]` (R22, R23). -/
def State.r8 (s : State) (r : GReg) : Byte :=
  if GReg.byteHigh r then (s.r32 (GReg.byteCell r)).extractLsb' 8 8 else (s.r32 (GReg.byteCell r)).extractLsb' 0 8

/-- `r8[i] <- v` changes those eight bits only (R23). -/
def State.setR8 (s : State) (r : GReg) (v : Byte) : State :=
  s.setR32 (GReg.byteCell r)
    (if GReg.byteHigh r
      then (s.r32 (GReg.byteCell r)).extractLsb' 16 16 ++ v ++ (s.r32 (GReg.byteCell r)).extractLsb' 0 8
      else (s.r32 (GReg.byteCell r)).extractLsb' 8 24 ++ v)

/-! ## Segment registers and descriptor table registers -/

/-- `sreg[i]` (R9, R28). -/
def State.sreg (s : State) : SReg → Word
  | .es => s.sregs.es
  | .cs => s.sregs.cs
  | .ss => s.sregs.ss
  | .ds => s.sregs.ds
  | .fs => s.sregs.fs
  | .gs => s.sregs.gs

/-- `sreg[i] <- v`: the 16-bit selector (R28). What the selector does to the segment base is not in the source; SEGBASE is a
parameter (R28, R69). -/
def State.setSreg (s : State) (r : SReg) (v : Word) : State :=
  match r with
  | .es => { s with sregs := { s.sregs with es := v } }
  | .cs => { s with sregs := { s.sregs with cs := v } }
  | .ss => { s with sregs := { s.sregs with ss := v } }
  | .ds => { s with sregs := { s.sregs with ds := v } }
  | .fs => { s with sregs := { s.sregs with fs := v } }
  | .gs => { s with sregs := { s.sregs with gs := v } }

/-- `SEGBASE(i)` (R68). -/
def SegBases.get (b : SegBases) : SReg → DWord
  | .es => b.es
  | .cs => b.cs
  | .ss => b.ss
  | .ds => b.ds
  | .fs => b.fs
  | .gs => b.gs

/-! ## Memory -/

/-- The byte at an address of the domain (R61). -/
def Memory.get? : Memory → Nat → Option Byte
  | [], _             => none
  | (a', b) :: m, a => if a' = a then some b else Memory.get? m a

/-- The map with one address given a byte, in the canonical form. -/
def Memory.put : Memory → Nat → Byte → Memory
  | [], a, v            => [(a, v)]
  | (a', b) :: m, a, v =>
    if a < a' then (a, v) :: (a', b) :: m
    else if a' = a then (a, v) :: m
    else (a', b) :: Memory.put m a v

/-- Addresses strictly rising from `lo` on, each below 2^32 (R68: addresses are taken mod 2^32). -/
def Memory.risesFrom : Nat → Memory → Bool
  | _, []          => true
  | lo, (a, _) :: m => decide (lo ≤ a) && decide (a < 2 ^ 32) && Memory.risesFrom (a + 1) m

/-- The canonical form: equal maps are equal lists. -/
def Memory.wf (m : Memory) : Bool := Memory.risesFrom 0 m

/-- `Addr(seg, off) = (SEGBASE(seg) + off) mod 2^32` (R68; PRESUMED, G20: entry 17). -/
def State.addr (s : State) (seg : SReg) (off : Nat) : Nat := ((s.launch.segBase.get seg).toNat + off) % 2 ^ 32

/-- The bytes at offsets off, off + 1, ... of a segment; an address outside MEM is stuck (R61, R68). -/
def State.readBytes (s : State) (seg : SReg) (off : Nat) : Nat → Except Stop (List Byte)
  | 0     => .ok []
  | n + 1 =>
    match Memory.get? s.mem (s.addr seg off) with
    | none   => .error (.fault (.stuck (s.addr seg off)))
    | some b =>
      match State.readBytes s seg (off + 1) n with
      | .ok bs   => .ok (b :: bs)
      | .error e => .error e

/-- The number whose bytes, low-order byte first, these are (R54, D8). -/
def leValue : List Byte → Nat
  | []      => 0
  | b :: bs => b.toNat + 256 * leValue bs

/-- The n low-order bytes of a number, low-order byte first (R54, D8). -/
def leBytes : Nat → Nat → List Byte
  | 0, _     => []
  | n + 1, v => BitVec.ofNat 8 v :: leBytes n (v / 256)

/-- `MemRead(seg, off, n)` with address size A (R9, R54, R68): refused when `off + n > 2^A` (D11), stuck outside MEM. -/
def State.memRead (s : State) (A : Size) (seg : SReg) (off n : Nat) : Except Stop Nat :=
  if A.span < off + n then .error (.refuse .pastOffsetSpace)
  else
    match s.readBytes seg off n with
    | .ok bs   => .ok (leValue bs)
    | .error e => .error e

/-- The map with bytes stored at offsets off, off + 1, ...; an address outside MEM is stuck (R61, R68). -/
def State.storeBytes (s : State) (seg : SReg) (off : Nat) : List Byte → Except Stop Memory
  | []      => .ok s.mem
  | b :: bs =>
    match Memory.get? s.mem (s.addr seg off) with
    | none   => .error (.fault (.stuck (s.addr seg off)))
    | some _ =>
      match State.storeBytes s seg (off + 1) bs with
      | .ok m    => .ok (Memory.put m (s.addr seg off) b)
      | .error e => .error e

/-- `MemWrite(seg, off, n, v)` with address size A (R9, R68): "under the same admission" as MemRead. -/
def State.memWrite (s : State) (A : Size) (seg : SReg) (off n v : Nat) : Except Stop State :=
  if A.span < off + n then .error (.refuse .pastOffsetSpace)
  else
    match s.storeBytes seg off (leBytes n v) with
    | .ok m    => .ok { s with mem := m }
    | .error e => .error e

/-! ## The program counter -/

/-- `pc <- pc + L`: the offset of the first byte after the instruction (R26, D23; PRESUMED, G3: entry 15). -/
def State.advance (s : State) (L : Nat) : State := { s with pc := s.pc + BitVec.ofNat 32 L }

/-- `LIMIT`: how many code offsets there are, by DEFAULT_OPERAND_SIZE (R26, R248). -/
def State.codeSpan (s : State) : Nat := s.launch.defaultOperandSize.span

/-! ## Exceptions -/

/-- The interrupt number of an exception, Table 17-6 (R201). -/
def interruptNumber : ExceptionName → Nat
  | .ud => 6
  | .nm => 7
  | .df => 8
  | .ts => 10
  | .np => 11
  | .ss => 12
  | .gp => 13
  | .pf => 14
  | .mf => 16

/-- TAKING AN EXCEPTION, `raise #XX(code)`: the terminal fault outcome that records the name, its interrupt number, the optional
error code and the pc of the instruction; nothing is saved and no handler is entered (R9, R207, D15; entry 10). There is no
return beside it: the spec defines no trap return (R208). -/
def raiseException (e : ExceptionName) (code : Option Nat) (s : State) : Host.Outcome State Fault Refusal :=
  .fault (.exception e (interruptNumber e) code s.pc)

/-! ## Prefixed instructions -/

/-- Why an instruction that carries the prefixes `p :: more` before the opcode `op` is refused: the opcode is not in OPCODE_MAP
(R134), or the form it selects admits no prefix (R88, R151, D5; entry 13). -/
def prefixRefusal (p : PrefixByte) (op : OpcodeKey) : Refusal :=
  match lookupKey opcodeMap op with
  | none   => .undecodable (.opcodeNotInMap op)
  | some _ => .prefixWithoutEffect p

end Sys2Proof.Machine
end

