-- ==== Sys2Proof/Machine/FlagControl.lean ====
section
/-! DEFINITION. The flag control family (40_flag_control.md): CMC. -/

namespace Sys2Proof.Machine

/-- CMC: `CF <- NOT CF; pc <- pc + 1`; it raises nothing in any mode (R150, R152, D32; PRESUMED, G15: entry 32). -/
def execCmc (s : State) : Host.Outcome State Fault Refusal := .next (s.complementCarry.advance 1)

end Sys2Proof.Machine
end

