-- ==== Sys2Proof/Machine/Prefixed.lean ====
section
/-! DEFINITION. The prefix rows (30_encoding.md R84 to R88, 41_named_instructions.md R162, R163): an instruction that begins with a
prefix. With OPCODE_MAP at its default no form admits any prefix, so each of these is refused, whatever follows (R88, R134, R151,
D4, D5; entry 13). What a segment or size override does to an instruction that admits it is in `segmentOf`, `operandSizeOf` and
`addressSizeOf` (R57, R89). -/

namespace Sys2Proof.Machine

/-- An instruction that begins with the REP, F3H (R84, R88, R162). -/
def execRep (_more : List PrefixByte) (op : OpcodeKey) (_s : State) : Host.Outcome State Fault Refusal :=
  .refused (prefixRefusal .rep op)

/-- An instruction that begins with the REPE/REPZ, F3H in its second spelling (R84, R88, R162). -/
def execRepeRepz (_more : List PrefixByte) (op : OpcodeKey) (_s : State) : Host.Outcome State Fault Refusal :=
  .refused (prefixRefusal .rep op)

/-- An instruction that begins with the REPNE/REPNZ, F2H (R84, R88, R162). -/
def execRepneRepnz (_more : List PrefixByte) (op : OpcodeKey) (_s : State) : Host.Outcome State Fault Refusal :=
  .refused (prefixRefusal .repne op)

/-- An instruction that begins with the LOCK, F0H (R84, R88, R163). -/
def execLock (_more : List PrefixByte) (op : OpcodeKey) (_s : State) : Host.Outcome State Fault Refusal :=
  .refused (prefixRefusal .lock op)

/-- An instruction that begins with the CS segment override, 2EH (R85, R88, R151). -/
def execCsOverride (_more : List PrefixByte) (op : OpcodeKey) (_s : State) : Host.Outcome State Fault Refusal :=
  .refused (prefixRefusal (.seg .cs) op)

/-- An instruction that begins with the SS segment override, 36H (R85, R88, R151). -/
def execSsOverride (_more : List PrefixByte) (op : OpcodeKey) (_s : State) : Host.Outcome State Fault Refusal :=
  .refused (prefixRefusal (.seg .ss) op)

/-- An instruction that begins with the DS segment override, 3EH (R85, R88, R151). -/
def execDsOverride (_more : List PrefixByte) (op : OpcodeKey) (_s : State) : Host.Outcome State Fault Refusal :=
  .refused (prefixRefusal (.seg .ds) op)

/-- An instruction that begins with the ES segment override, 26H (R85, R88, R151). -/
def execEsOverride (_more : List PrefixByte) (op : OpcodeKey) (_s : State) : Host.Outcome State Fault Refusal :=
  .refused (prefixRefusal (.seg .es) op)

/-- An instruction that begins with the FS segment override, 64H (R85, R88, R151). -/
def execFsOverride (_more : List PrefixByte) (op : OpcodeKey) (_s : State) : Host.Outcome State Fault Refusal :=
  .refused (prefixRefusal (.seg .fs) op)

/-- An instruction that begins with the GS segment override, 65H (R85, R88, R151). -/
def execGsOverride (_more : List PrefixByte) (op : OpcodeKey) (_s : State) : Host.Outcome State Fault Refusal :=
  .refused (prefixRefusal (.seg .gs) op)

/-- An instruction that begins with the operand-size override, 66H (R86, R88, R151). -/
def execOpSizeOverride (_more : List PrefixByte) (op : OpcodeKey) (_s : State) : Host.Outcome State Fault Refusal :=
  .refused (prefixRefusal .opSize op)

/-- An instruction that begins with the address-size override, 67H (R86, R88, R151). -/
def execAdSizeOverride (_more : List PrefixByte) (op : OpcodeKey) (_s : State) : Host.Outcome State Fault Refusal :=
  .refused (prefixRefusal .adSize op)

end Sys2Proof.Machine
end

