-- ==== Sys2Proof/Machine/Dispatch.lean ====
section
/-! DEFINITION. One arm per constructor of Instr (R248). -/

namespace Sys2Proof.Machine

def exec (i : Instr) (s : State) : Host.Outcome State Fault Refusal :=
  match i with
  | .cmc => Sys2Proof.Machine.execCmc s
  | .rep more op => Sys2Proof.Machine.execRep more op s
  | .repeRepz more op => Sys2Proof.Machine.execRepeRepz more op s
  | .repneRepnz more op => Sys2Proof.Machine.execRepneRepnz more op s
  | .lock more op => Sys2Proof.Machine.execLock more op s
  | .csOverride more op => Sys2Proof.Machine.execCsOverride more op s
  | .ssOverride more op => Sys2Proof.Machine.execSsOverride more op s
  | .dsOverride more op => Sys2Proof.Machine.execDsOverride more op s
  | .esOverride more op => Sys2Proof.Machine.execEsOverride more op s
  | .fsOverride more op => Sys2Proof.Machine.execFsOverride more op s
  | .gsOverride more op => Sys2Proof.Machine.execGsOverride more op s
  | .opSizeOverride more op => Sys2Proof.Machine.execOpSizeOverride more op s
  | .adSizeOverride more op => Sys2Proof.Machine.execAdSizeOverride more op s

end Sys2Proof.Machine
end

