-- ==== Sys2Proof/Machine/Fetch.lean ====
section
/-! DEFINITION. Fetching an instruction's bytes (R9, R53, R66, R68) and placing them where the next step fetches. -/

namespace Sys2Proof.Machine

/-- `Fetch` at a code offset: the byte at `Addr(CS, offset)` (R9, R68). The offset space of code is LIMIT, by
DEFAULT_OPERAND_SIZE (DEDUCED from R26 and R248: entry 18). -/
def State.fetchByte (s : State) (off : Nat) : Except Stop Byte :=
  if s.codeSpan < off + 1 then .error (.refuse .pastOffsetSpace)
  else
    match Memory.get? s.mem (s.addr .cs off) with
    | none   => .error (.fault (.stuck (s.addr .cs off)))
    | some b => .ok b

/-- What the decoder can fetch: the bytes at increasing code offsets from `off` on, at most `n` of them, and what stopped the
fetch, if anything did. -/
def State.fetchRun (s : State) (off : Nat) : Nat → List Byte × Option Stop
  | 0     => ([], none)
  | n + 1 =>
    match s.fetchByte off with
    | .error e => ([], some e)
    | .ok b    => (b :: (State.fetchRun s (off + 1) n).1, (State.fetchRun s (off + 1) n).2)

/-- The fetch window at pc: as many bytes as the format allows an instruction (R82; entry 18). -/
def State.fetchWindow (s : State) : List Byte × Option Stop := s.fetchRun s.pc.toNat Config.formatBound

/-- What stops a step whose bytes end before the instruction does: what stopped the fetch, or the length limit (R82). -/
def truncatedStop : Option Stop → Stop
  | some e => e
  | none   => .refuse (.undecodable .tooLong)

/-- The stop of a step whose bytes do not decode. -/
def decodeStop (e : DecodeError) (fetchStop : Option Stop) : Stop :=
  match e with
  | .truncated => truncatedStop fetchStop
  | e'         => .refuse (.undecodable e')

/-- Bytes stored at increasing code offsets, whether or not MEM had those addresses: a load from outside the machine. -/
def State.placeCode (s : State) (off : Nat) : List Byte → Memory
  | []      => s.mem
  | b :: bs => Memory.put (State.placeCode s (off + 1) bs) (s.addr .cs off) b

/-- CODE_END moved past the placed bytes when it lies among them (R247, R248; entry 7). -/
def State.codeEndPast (s : State) (n : Nat) : DWord :=
  if s.pc.toNat ≤ s.launch.codeEnd.toNat ∧ s.launch.codeEnd.toNat < s.pc.toNat + n
  then s.pc + BitVec.ofNat 32 n else s.launch.codeEnd

end Sys2Proof.Machine
end

