-- ==== Sys2Proof/Machine/Step.lean ====
section
/-! DEFINITION. One step of the machine, whole (R248), and the placement of a table word where the step fetches. -/

namespace Sys2Proof.Machine

/-- An instruction of length n at pc (R248): refused when its bytes reach the end of the offset space (R26, D23) or straddle
CODE_END (R247, D22), else run. -/
def runDecoded (i : Instr) (n : Nat) (s : State) : Host.Outcome State Fault Refusal :=
  if s.codeSpan - 1 < s.pc.toNat + n then .refused .endOfOffsetSpace
  else if s.pc.toNat < s.launch.codeEnd.toNat ∧ s.launch.codeEnd.toNat < s.pc.toNat + n then .refused .straddlesCodeEnd
  else exec i s

/-- `Step(state)` (R248). -/
def step (s : State) : Host.Outcome State Fault Refusal :=
  if s.pc = s.launch.codeEnd then .fault .runEnded
  else
    match decode s.fetchWindow.1 with
    | .error e   => (decodeStop e s.fetchWindow.2).outcome
    | .ok (i, n) => runDecoded i n s

/-- s with a table word's bytes at pc, so that the next step fetches it: the bytes through `Addr(CS, .)`, and CODE_END moved
past them when it lies among them (entry 7). -/
def State.withFetchWord (s : State) (nbits w : Nat) : State :=
  { s with
    mem    := s.placeCode s.pc.toNat (tableBytes nbits w)
    launch := { s.launch with codeEnd := s.codeEndPast Config.maxInstructionLength } }

end Sys2Proof.Machine
end

