-- ==== Sys2Proof/Machine/Operands.lean ====
section
/-! DEFINITION. Every operand form of the spec over the state: the effective address (R96 to R106), segment selection (R57), the
r/m operand in its three widths (R125 to R127), immediates (R122 to R124), relative targets (R116, R117), far pointers (R118,
R129), pairs (R130), string and memory-offset operands (R58, R59), and BIT (R24, R55). CMC has no operand; these stand for
the arms a later opcode map would add (R5, D1). -/

namespace Sys2Proof.Machine

/-! ## The effective address -/

/-- What an r/m operand is: a register code, or a memory operand with its segment and effective address (R106). -/
inductive RmOperand where
  | register (r : GReg)
  | memory (seg : SReg) (ea : DWord)
deriving DecidableEq, Repr

/-- A displacement as a value of the address size: disp8 is sign-extended, a full one is added as it is (R97, R99, R170). -/
def Disp.value {w : Nat} : Disp w → BitVec w
  | .none   => 0
  | .d8 b   => b.signExtend w
  | .full v => v

/-- S of R97: the sum of the word registers of a 16-bit form (R96). -/
def Base16.sum (s : State) : Base16 → Word
  | .bxSi => s.r16 .ebx + s.r16 .esi
  | .bxDi => s.r16 .ebx + s.r16 .edi
  | .bpSi => s.r16 .ebp + s.r16 .esi
  | .bpDi => s.r16 .ebp + s.r16 .edi
  | .si   => s.r16 .esi
  | .di   => s.r16 .edi
  | .bp   => s.r16 .ebp
  | .bx   => s.r16 .ebx

/-- "SS for the effective addresses containing a BP index, DS for other effective addresses" (R98). -/
def Base16.defaultSeg : Base16 → SReg
  | .bpSi => .ss
  | .bpDi => .ss
  | .bp   => .ss
  | _     => .ds

/-- `2^ss` (R102). -/
def Scale.factor : Scale → DWord
  | .x1 => 1
  | .x2 => 2
  | .x4 => 4
  | .x8 => 8

/-- X of R104: the scaled index, 0 when the index code is "none" (R102). -/
def scaledIndex (s : State) (ss : Scale) : Option GReg → DWord
  | none   => 0
  | some r => s.r32 r * Scale.factor ss

/-- SS when the base register is EBP or ESP, DS otherwise (R105, D7; PRESUMED, G7: entry 16). -/
def defaultSeg32 : GReg → SReg
  | .esp => .ss
  | .ebp => .ss
  | _    => .ds

/-- The r/m operand of a form: a register code (R95), or the effective address, reduced to the address size, with the default
segment (R97, R98, R104, R105; the reduction is D6: entry 16). -/
def RmForm.operand (s : State) : RmForm → RmOperand
  | .reg r             => .register r
  | .base16 b d        => .memory (Base16.defaultSeg b) ((Base16.sum s b + Disp.value d).setWidth 32)
  | .disp16 d          => .memory .ds (d.setWidth 32)
  | .base32 b d        => .memory (defaultSeg32 b) (s.r32 b + Disp.value d)
  | .disp32 d          => .memory .ds d
  | .sib ss x b d      => .memory (defaultSeg32 b) (s.r32 b + scaledIndex s ss x + Disp.value d)
  | .sibDisp32 ss x d  => .memory .ds (scaledIndex s ss x + d)

/-- `DecodeAddrSpec(A, b)`: the reg field, the r/m operand and the bytes consumed (R106); none only where the bytes run out. It
reads the general registers and nothing else. -/
def decodeAddrSpec (A : Size) (bytes : List Byte) (s : State) : Option (BitVec 3 × RmOperand × Nat) :=
  (takeAddrSpec A bytes).map fun (sp, left) => (sp.reg, RmForm.operand s sp.rm, bytes.length - left.length)

/-- The r/m operand under an instruction's prefixes: a segment override replaces the default segment, and nothing else (R57). -/
def RmOperand.override (ps : List PrefixByte) : RmOperand → RmOperand
  | .register r    => .register r
  | .memory seg ea => .memory (segmentOf seg ps) ea

/-! ## Register and r/m operands by width -/

/-- The width of an operand (R8): the opcode selects byte, the operand-size attribute word or doubleword (R89). -/
inductive Width where
  | byte
  | word
  | dword
deriving DecidableEq, Repr

/-- The width in bits (R8). -/
def Width.bits : Width → Nat
  | .byte  => 8
  | .word  => 16
  | .dword => 32

/-- The width in bytes (R8, R52). -/
def Width.bytes : Width → Nat
  | .byte  => 1
  | .word  => 2
  | .dword => 4

/-- The width an operand-size attribute gives (R120, R121, R126, R127). -/
def Width.ofSize : Size → Width
  | .s16 => .word
  | .s32 => .dword

/-- `r8`, `r16`, `r32`: the register operand of a code (R94, R119, R120, R121). -/
def State.readReg (s : State) (w : Width) (r : GReg) : BitVec w.bits :=
  match w with
  | .byte  => s.r8 r
  | .word  => s.r16 r
  | .dword => s.r32 r

/-- Writing the register operand of a code (R94, R119, R120, R121). -/
def State.writeReg (s : State) (w : Width) (r : GReg) (v : BitVec w.bits) : State :=
  match w with
  | .byte  => s.setR8 r v
  | .word  => s.setR16 r v
  | .dword => s.setR32 r v

/-- `r/m8`, `r/m16`, `r/m32`: the register's contents, or memory at the effective address (R125, R126, R127). -/
def State.readRm (s : State) (A : Size) (w : Width) : RmOperand → Except Stop (BitVec w.bits)
  | .register r    => .ok (s.readReg w r)
  | .memory seg ea => (s.memRead A seg ea.toNat w.bytes).map (BitVec.ofNat w.bits)

/-- Writing an r/m operand (R125, R126, R127). -/
def State.writeRm (s : State) (A : Size) (w : Width) (o : RmOperand) (v : BitVec w.bits) : Except Stop State :=
  match o with
  | .register r    => .ok (s.writeReg w r v)
  | .memory seg ea => s.memWrite A seg ea.toNat w.bytes v.toNat

/-! ## Immediates and targets -/

/-- `imm8` with an operand of another width: sign-extended (R122, R170). -/
def imm8As (w : Width) (ib : Byte) : BitVec w.bits := ib.signExtend w.bits

/-- The target of a relative transfer before any reduction: the end of the instruction plus the signed displacement. For rel8 this
is all the spec gives: how its target is reduced is on absent pages (R116, entry 21). -/
def relTarget {w : Nat} (pc : DWord) (L : Nat) (rel : BitVec w) : Int := pc.toNat + L + rel.toInt

/-- The target of rel16 (operand size 16) or rel32 (operand size 32): counted from the end of the instruction and reduced modulo
2^16 or 2^32, so that the field's sign does not matter (R117; both PRESUMED, G12: entry 21). -/
def relTargetOf (op : Size) (pc : DWord) (L : Nat) (rel : BitVec op.bits) : DWord :=
  BitVec.ofNat 32 ((pc.toNat + L + rel.toNat) % op.span)

/-- The target from the bytes of the last field, `cw` for rel16 or `cd` for rel32, low-order byte first (R53, R117). -/
def relTargetOfBytes (op : Size) (pc : DWord) (L : Nat) : List Byte → Option DWord
  | bytes =>
    match op with
    | .s16 =>
      match bytes with
      | [b0, b1] => some (relTargetOf .s16 pc L (leWord b0 b1))
      | _        => none
    | .s32 =>
      match bytes with
      | [b0, b1, b2, b3] => some (relTargetOf .s32 pc L (leDWord b0 b1 b2 b3))
      | _                => none

/-- A far pointer: a 16-bit selector and an offset (R118, R129). -/
structure FarPtr where
  selector : Word
  offset   : DWord
deriving DecidableEq, Repr

/-- A far pointer in an instruction's last field, `cd` or `cp`: offset first, selector last, each low-order byte first (R113,
R118; the order PRESUMED, G13, D25: entry 19). -/
def farPtrOfBytes (op : Size) : List Byte → Option FarPtr
  | bytes =>
    match op with
    | .s16 =>
      match bytes with
      | [o0, o1, s0, s1] => some ⟨leWord s0 s1, (leWord o0 o1).setWidth 32⟩
      | _                => none
    | .s32 =>
      match bytes with
      | [o0, o1, o2, o3, s0, s1] => some ⟨leWord s0 s1, leDWord o0 o1 o2 o3⟩
      | _                        => none

/-! ## Composite memory operands (R56, D25: entry 19) -/

/-- `m16:16`, `m16:32`: the offset at the lower address, the selector after it (R56, R129). -/
def State.readFarPtr (s : State) (A op : Size) (seg : SReg) (off : Nat) : Except Stop FarPtr :=
  match s.memRead A seg off (match op with | .s16 => 4 | .s32 => 6) with
  | .error e => .error e
  | .ok v    =>
    match op with
    | .s16 => .ok ⟨BitVec.ofNat 16 (v / 2 ^ 16), BitVec.ofNat 32 (v % 2 ^ 16)⟩
    | .s32 => .ok ⟨BitVec.ofNat 16 (v / 2 ^ 32), BitVec.ofNat 32 v⟩

/-- `m16&16`, `m32&32`, the BOUND operand: the lower bound first, then the upper bound (R56, R130, R165). -/
def State.readBounds (s : State) (A op : Size) (seg : SReg) (off : Nat) :
    Except Stop (BitVec op.bits × BitVec op.bits) :=
  match s.memRead A seg off (2 * (op.bits / 8)) with
  | .error e => .error e
  | .ok v    => .ok (BitVec.ofNat op.bits v, BitVec.ofNat op.bits (v / 2 ^ op.bits))

/-- `m16&32`, the LIDT and LGDT operand: the limit word at +0, the base doubleword at +2 (R56, R130). It takes no operand size: all
32 bits of the base are read and kept under either (DESIGN CHOICE, the spec leaves the width used open, R166, N6: entry 33). -/
def State.readTable (s : State) (A : Size) (seg : SReg) (off : Nat) : Except Stop DescTable :=
  match s.memRead A seg off 6 with
  | .error e => .error e
  | .ok v    => .ok ⟨BitVec.ofNat 16 v, BitVec.ofNat 32 (v / 2 ^ 16)⟩

/-- What LIDT loads: the Interrupt Descriptor Table Register's limit and base from an `m16&32` operand (R30, R166). The
instruction has no opcode in the spec and no constructor (R170; entry 25). All 32 bits of the base are loaded whatever the operand
size, and no privilege is checked (DESIGN CHOICE, R166 lists both as missing: entry 33). -/
def State.loadIdtr (s : State) (A : Size) (seg : SReg) (off : Nat) : Except Stop State :=
  match s.readTable A seg off with
  | .ok t    => .ok { s with idtr := t }
  | .error e => .error e

/-- What LGDT loads: the Global Descriptor Table Register's limit and base (R30, R167; entry 25), all 32 bits of the base whatever
the operand size and with no privilege check, as in `loadIdtr` (DESIGN CHOICE: entry 33). -/
def State.loadGdtr (s : State) (A : Size) (seg : SReg) (off : Nat) : Except Stop State :=
  match s.readTable A seg off with
  | .ok t    => .ok { s with gdtr := t }
  | .error e => .error e

/-! ## Operands without a ModR/M byte -/

/-- SI or DI as an offset: the word register with a 16-bit address size (R58); with 32 bits ESI or EDI (PRESUMED, G12: entry 22). -/
def State.stringOffset (s : State) (A : Size) (r : GReg) : Nat :=
  match A with
  | .s16 => (s.r16 r).toNat
  | .s32 => (s.r32 r).toNat

/-- The source of a string instruction, DS:SI with an overridable segment (R12, R58, R128). -/
def State.stringSource (s : State) (A : Size) (ps : List PrefixByte) : SReg × Nat := (segmentOf .ds ps, s.stringOffset A .esi)

/-- The destination of a string instruction, ES:DI; an override does not touch it (DESIGN CHOICE, the spec does not say, N12:
entry 22). -/
def State.stringDest (s : State) (A : Size) : SReg × Nat := (.es, s.stringOffset A .edi)

/-- A `moffs` operand: DS, overridable, and the offset carried in the instruction, 2 or 4 bytes by the address size (R59, R131;
the default segment PRESUMED, G7: entry 16). -/
def moffsOperand (A : Size) (ps : List PrefixByte) : List Byte → Option (SReg × Nat)
  | bytes =>
    match A with
    | .s16 =>
      match bytes with
      | [b0, b1] => some (segmentOf .ds ps, (leWord b0 b1).toNat)
      | _        => none
    | .s32 =>
      match bytes with
      | [b0, b1, b2, b3] => some (segmentOf .ds ps, (leDWord b0 b1 b2 b3).toNat)
      | _                => none

/-- The forms of CMPS whose mnemonic fixes the operand size (R14, R161). -/
inductive CmpsForm where
  | cmpsw
  | cmpsd
deriving DecidableEq, Repr

/-- "IF instruction = CMPSW THEN OperandSize <- 16; ELSE IF instruction = CMPSD THEN OperandSize <- 32" (R14, R161). -/
def CmpsForm.operandSize : CmpsForm → Size
  | .cmpsw => .s16
  | .cmpsd => .s32

/-! ## BIT (R15) -/

/-- `BIT[r16[i], k]` or `BIT[r32[i], k]`: bit k counting from the least significant, refused outside the register (R24, D31). -/
def bitOfReg {w : Nat} (v : BitVec w) (k : Int) : Except Stop Bool :=
  if 0 ≤ k ∧ k < w then .ok (v.getLsbD k.toNat) else .error (.refuse .bitOffsetOutside)

/-- `BIT[BitBase, k]` in memory: bit `k mod 8` of the byte at `BITBASE + floor(k / 8)` (R55). -/
def bitAddress (bitBase : Int) (k : Int) : Int × Nat := (bitBase + k / 8, (k % 8).toNat)

/-- Reading a memory bit through the one byte it lies in: the spec leaves the width of the access open (R55, N29), and one byte is
the model's choice (DESIGN CHOICE: entry 34). A byte below offset 0 of the segment is refused (DESIGN CHOICE, N29: entry 23). -/
def State.bitOfMem (s : State) (A : Size) (seg : SReg) (bitBase : Nat) (k : Int) : Except Stop Bool :=
  match bitAddress bitBase k with
  | (off, i) =>
    if off < 0 then .error (.refuse .bitOffsetOutside)
    else (s.memRead A seg off.toNat 1).map fun v => v.testBit i

end Sys2Proof.Machine
end

