-- ==== Sys2Proof/Machine/Timing.lean ====
section
/-! DEFINITION. Timing as the spec transcribes it (R243 to R245): data that no step reads (R246). -/

namespace Sys2Proof.Machine

/-- The Clocks column: CMC has 2 (R244); the source gives no count for a prefix. -/
def clocksOf : Instr → Option Nat
  | .cmc => some 2
  | _    => none

/-- The kinds of task in Table 17-5 (R31, R245). -/
inductive TaskKind where
  | tss386vm0
  | tss386vm1
  | tss286
deriving DecidableEq, Repr

/-- Table 17-5: clocks added when the handler is in another task, by old and new task; the table has no column for a new 386 TSS
with VM = 1 (R245, N44). -/
def taskSwitchClocks : TaskKind → TaskKind → Option Nat
  | .tss386vm0, .tss386vm0 => some 309
  | .tss386vm0, .tss286    => some 282
  | .tss386vm1, .tss386vm0 => some 314
  | .tss386vm1, .tss286    => some 231
  | .tss286, .tss386vm0    => some 307
  | .tss286, .tss286       => some 282
  | _, .tss386vm1          => none

end Sys2Proof.Machine
end

