-- ==== Sys2Proof/Safety.lean ====
section
/-! DEFINITION. What counts as a legal state and a safe run, in the terms the statements use: the model's invariant, the launch
premises of R241 that a state can express, and the ends of a run (R207, R247). -/

namespace Sys2Proof.Machine

/-- The invariant of the model: memory is in its canonical form, and pc fits the offset space ("`pc` therefore always fits its
width", R26). -/
structure State.Inv (s : State) : Prop where
  memWf  : Memory.wf s.mem = true
  pcFits : s.pc.toNat < s.codeSpan

/-- Launch premise (a) of R241, "code present": every code offset from pc up to CODE_END - 1 maps into the domain of MEM. -/
def State.CodePresent (s : State) : Prop :=
  ∀ off, s.pc.toNat ≤ off → off < s.launch.codeEnd.toNat → (Memory.get? s.mem (s.addr .cs off)).isSome

/-- The state is final: the run has ended here (R247). -/
def State.IsFinal (s : State) : Prop := s.pc = s.launch.codeEnd

/-- A safe step: it answers a next state, or the state is final. -/
def State.StepSafe (s : State) : Prop := s.IsFinal ∨ ∃ t, step s = .next t

/-- The bytes of an instruction lie at pc (R9, R53, R68). -/
def State.HasBytesAtPc (s : State) (bytes : List Byte) : Prop :=
  ∀ k b, bytes[k]? = some b → Memory.get? s.mem (s.addr .cs (s.pc.toNat + k)) = some b

end Sys2Proof.Machine
end

