-- ==== Sys2Proof/Certificates/Slice0/Obligations.lean ====
section
/-! DEFINITION. The statements for the provers, from the numbered rules of spec/. First the formulas of R81, R106 written over
natural numbers and raw bits, which the statements about the address specifier compare the model with. -/

namespace Sys2Proof.Machine

/-! ## The pseudocode and the length table of R106, over natural numbers -/

/-- Byte k of a string as a number. -/
def byteN (bytes : List Byte) (k : Nat) : Nat := (bytes.getD k 0).toNat

/-- mod, reg, r/m of the ModR/M byte, by arithmetic (R93). -/
def modN (bytes : List Byte) : Nat := byteN bytes 0 / 64
def rmN (bytes : List Byte) : Nat := byteN bytes 0 % 8

/-- ss, index, base of the SIB byte, by arithmetic (R101). -/
def ssN (bytes : List Byte) : Nat := byteN bytes 1 / 64
def indexN (bytes : List Byte) : Nat := byteN bytes 1 / 8 % 8
def baseN (bytes : List Byte) : Nat := byteN bytes 1 % 8

/-- `r32[i]` and `r16[i]` by code, as numbers. -/
def r32N (s : State) (i : Nat) : Nat := (s.r32 (GReg.ofCode (BitVec.ofNat 3 i))).toNat
def r16N (s : State) (i : Nat) : Nat := r32N s i % 2 ^ 16

/-- Two and four bytes from k on, low-order byte first. -/
def le2N (bytes : List Byte) (k : Nat) : Nat := byteN bytes k + 256 * byteN bytes (k + 1)
def le4N (bytes : List Byte) (k : Nat) : Nat := le2N bytes k + 65536 * le2N bytes (k + 2)

/-- A byte sign-extended to N bits, as an unsigned number. -/
def sextN (N b : Nat) : Nat := if b < 128 then b else b + 2 ^ N - 256

/-- The 16-bit form contains BP: r/m = 010 or 011, or r/m = 110 with mod not 00 (R98). -/
def containsBp (bytes : List Byte) : Bool :=
  rmN bytes == 2 || rmN bytes == 3 || (rmN bytes == 6 && modN bytes != 0)

/-- S of R106 for A = 16: BX = 3, BP = 5, SI = 6, DI = 7. -/
def sum16N (s : State) (bytes : List Byte) : Nat :=
  match rmN bytes with
  | 0 => r16N s 3 + r16N s 6
  | 1 => r16N s 3 + r16N s 7
  | 2 => r16N s 5 + r16N s 6
  | 3 => r16N s 5 + r16N s 7
  | 4 => r16N s 6
  | 5 => r16N s 7
  | 6 => if modN bytes = 0 then 0 else r16N s 5
  | _ => r16N s 3

/-- D of R106 for A = 16. -/
def disp16N (bytes : List Byte) : Nat :=
  if modN bytes = 0 then (if rmN bytes = 6 then le2N bytes 1 else 0)
  else if modN bytes = 1 then sextN 16 (byteN bytes 1)
  else le2N bytes 1

/-- The bytes consumed for A = 16, mod not 11 (the length table of R106). -/
def length16N (bytes : List Byte) : Nat :=
  if modN bytes = 0 then (if rmN bytes = 6 then 3 else 1) else if modN bytes = 1 then 2 else 3

/-- A SIB byte follows, for A = 32 and mod not 11 (R100). -/
def sibN (bytes : List Byte) : Bool := rmN bytes == 4

/-- The code of the base register for A = 32: the SIB base or r/m. -/
def baseCodeN (bytes : List Byte) : Nat := if sibN bytes then baseN bytes else rmN bytes

/-- No base register for A = 32: code 101 with mod = 00 (R99, R103). -/
def noBase (bytes : List Byte) : Bool := baseCodeN bytes == 5 && modN bytes == 0

/-- X of R106. -/
def scaledN (s : State) (bytes : List Byte) : Nat :=
  if sibN bytes && indexN bytes != 4 then r32N s (indexN bytes) * 2 ^ ssN bytes else 0

/-- The index of the first displacement byte for A = 32. -/
def dispAtN (bytes : List Byte) : Nat := if sibN bytes then 2 else 1

/-- D of R106 for A = 32. -/
def disp32N (bytes : List Byte) : Nat :=
  if noBase bytes then le4N bytes (dispAtN bytes)
  else if modN bytes = 0 then 0
  else if modN bytes = 1 then sextN 32 (byteN bytes (dispAtN bytes))
  else le4N bytes (dispAtN bytes)

/-- B of R106. -/
def base32N (s : State) (bytes : List Byte) : Nat := if noBase bytes then 0 else r32N s (baseCodeN bytes)

/-- The bytes consumed for A = 32, mod not 11 (the length table of R106). -/
def length32N (bytes : List Byte) : Nat :=
  dispAtN bytes + (if noBase bytes then 4 else if modN bytes = 0 then 0 else if modN bytes = 1 then 1 else 4)

/-- A form read with a SIB byte. -/
def hasSib : RmForm → Bool
  | .sib _ _ _ _     => true
  | .sibDisp32 _ _ _ => true
  | _                => false

end Sys2Proof.Machine

open Sys2Proof Sys2Proof.Machine

/-! ## CMC (40_flag_control.md) -/

/-- CMC answers a next state: CF complemented, pc advanced by one, nothing else changed (the pseudocode of R150; the advance is
D23, general knowledge G3, entry 15; that nothing is raised is D32, entry 32). -/
def Obligations.CmcComplementsCarryAndAdvances : Prop :=
  ∀ s : State, exec .cmc s = .next { s with cf := !s.cf, pc := s.pc + 1 }

/-- The frame of CMC: every general register in its three widths, every segment register, both descriptor table registers, the
launch parameters and every byte of memory are as before. -/
def Obligations.CmcFrame : Prop :=
  ∀ s t : State, exec .cmc s = .next t →
    (∀ r, t.r32 r = s.r32 r ∧ t.r16 r = s.r16 r ∧ t.r8 r = s.r8 r) ∧ (∀ r, t.sreg r = s.sreg r) ∧
    t.gdtr = s.gdtr ∧ t.idtr = s.idtr ∧ t.launch = s.launch ∧ ∀ a, Memory.get? t.mem a = Memory.get? s.mem a

/-- "two CMC in a row restore CF" (R150). -/
def Obligations.CmcTwiceRestoresCarry : Prop :=
  ∀ s : State, ∃ t u, exec .cmc s = .next t ∧ exec .cmc t = .next u ∧ t.cf ≠ s.cf ∧ u.cf = s.cf

/-- CMC does the same under every mode and both sizes of both attributes (R152). -/
def Obligations.CmcSameInEveryMode : Prop :=
  ∀ (s : State) (L : Launch), ∃ t u, exec .cmc s = .next t ∧ exec .cmc { s with launch := L } = .next u ∧
    u = { t with launch := L }

/-! ## The prefix rows (R88, R151): where they stop -/

/-- An instruction that begins with F3H (in either spelling), F2H or F0H is refused: its opcode is not in OPCODE_MAP, or it is
F5, CMC, which admits no prefix (R84, R88, R134, D5: the model's treatment, entry 13). -/
def Obligations.InstructionPrefixesAreRefused : Prop :=
  ∀ (s : State) (more : List PrefixByte) (op : OpcodeKey),
    (op = .one 0xF5 →
      exec (.rep more op) s = .refused (.prefixWithoutEffect .rep) ∧
      exec (.repeRepz more op) s = .refused (.prefixWithoutEffect .rep) ∧
      exec (.repneRepnz more op) s = .refused (.prefixWithoutEffect .repne) ∧
      exec (.lock more op) s = .refused (.prefixWithoutEffect .lock)) ∧
    (op ≠ .one 0xF5 →
      exec (.rep more op) s = .refused (.undecodable (.opcodeNotInMap op)) ∧
      exec (.repeRepz more op) s = .refused (.undecodable (.opcodeNotInMap op)) ∧
      exec (.repneRepnz more op) s = .refused (.undecodable (.opcodeNotInMap op)) ∧
      exec (.lock more op) s = .refused (.undecodable (.opcodeNotInMap op)))

/-- An instruction that begins with one of the six segment overrides is refused, for the same two reasons (R85, R88, R134, R151). -/
def Obligations.SegmentOverridesAreRefused : Prop :=
  ∀ (s : State) (more : List PrefixByte) (op : OpcodeKey),
    (op = .one 0xF5 →
      exec (.csOverride more op) s = .refused (.prefixWithoutEffect (.seg .cs)) ∧
      exec (.ssOverride more op) s = .refused (.prefixWithoutEffect (.seg .ss)) ∧
      exec (.dsOverride more op) s = .refused (.prefixWithoutEffect (.seg .ds)) ∧
      exec (.esOverride more op) s = .refused (.prefixWithoutEffect (.seg .es)) ∧
      exec (.fsOverride more op) s = .refused (.prefixWithoutEffect (.seg .fs)) ∧
      exec (.gsOverride more op) s = .refused (.prefixWithoutEffect (.seg .gs))) ∧
    (op ≠ .one 0xF5 →
      exec (.csOverride more op) s = .refused (.undecodable (.opcodeNotInMap op)) ∧
      exec (.ssOverride more op) s = .refused (.undecodable (.opcodeNotInMap op)) ∧
      exec (.dsOverride more op) s = .refused (.undecodable (.opcodeNotInMap op)) ∧
      exec (.esOverride more op) s = .refused (.undecodable (.opcodeNotInMap op)) ∧
      exec (.fsOverride more op) s = .refused (.undecodable (.opcodeNotInMap op)) ∧
      exec (.gsOverride more op) s = .refused (.undecodable (.opcodeNotInMap op)))

/-- An instruction that begins with 66H or 67H is refused, for the same two reasons (R86, R88, R134, R151). -/
def Obligations.SizeOverridesAreRefused : Prop :=
  ∀ (s : State) (more : List PrefixByte) (op : OpcodeKey),
    (op = .one 0xF5 →
      exec (.opSizeOverride more op) s = .refused (.prefixWithoutEffect .opSize) ∧
      exec (.adSizeOverride more op) s = .refused (.prefixWithoutEffect .adSize)) ∧
    (op ≠ .one 0xF5 →
      exec (.opSizeOverride more op) s = .refused (.undecodable (.opcodeNotInMap op)) ∧
      exec (.adSizeOverride more op) s = .refused (.undecodable (.opcodeNotInMap op)))

/-! ## One step (70_reset_and_hazards.md) -/

/-- When the fetched bytes decode to i with length n, and neither bound of R248 refuses it, the step is exec of i at that state;
exec itself moves pc past the instruction. -/
def Obligations.StepRunsDecodedInstruction : Prop :=
  ∀ (s : State) (i : Instr) (n : Nat), s.pc ≠ s.launch.codeEnd → decode s.fetchWindow.1 = .ok (i, n) →
    s.pc.toNat + n ≤ s.codeSpan - 1 →
    ¬ (s.pc.toNat < s.launch.codeEnd.toNat ∧ s.launch.codeEnd.toNat < s.pc.toNat + n) →
    step s = exec i s

/-- When the bytes of a well-formed instruction lie in memory at Addr(CS, pc), and neither bound of R248 refuses it, the step is
exec of that instruction (the two spellings of F3H run alike). -/
def Obligations.StepRunsEncodedInstruction : Prop :=
  ∀ (s : State) (i : Instr), i.wf = true → s.HasBytesAtPc (encode i) → s.pc ≠ s.launch.codeEnd →
    s.pc.toNat + (encode i).length ≤ s.codeSpan - 1 →
    ¬ (s.pc.toNat < s.launch.codeEnd.toNat ∧ s.launch.codeEnd.toNat < s.pc.toNat + (encode i).length) →
    step s = exec i s

/-- All the next states of the machine: a step answers a next state exactly when pc is not CODE_END, the byte F5 lies at
Addr(CS, pc), and the successor offset fits; and that next state has CF complemented, pc one further, all else unchanged. -/
def Obligations.StepAdvancesExactlyOnCmc : Prop :=
  ∀ s t : State, step s = .next t ↔
    s.pc ≠ s.launch.codeEnd ∧ s.pc.toNat + 1 ≤ s.codeSpan - 1 ∧
    Memory.get? s.mem (s.addr .cs s.pc.toNat) = some 0xF5 ∧
    t = { s with cf := !s.cf, pc := s.pc + 1 }

/-- The run ends exactly when pc = CODE_END at the start of a step (R247, D22; the outcome's form is entry 8). -/
def Obligations.RunEndsExactlyAtCodeEnd : Prop :=
  ∀ s : State, step s = .fault .runEnded ↔ s.pc = s.launch.codeEnd

/-- A step whose first byte is outside MEM is stuck (R61, R207, D10; entry 9). -/
def Obligations.StepStuckOutsideMemory : Prop :=
  ∀ s : State, s.pc ≠ s.launch.codeEnd → s.pc.toNat + 1 ≤ s.codeSpan →
    Memory.get? s.mem (s.addr .cs s.pc.toNat) = none → step s = .fault (.stuck (s.addr .cs s.pc.toNat))

/-- A first byte that is neither F5, nor a prefix value, nor the escape 0FH is refused as not in OPCODE_MAP (R134, D2). -/
def Obligations.UnknownOpcodeRefused : Prop :=
  ∀ (s : State) (b : Byte), s.pc ≠ s.launch.codeEnd → s.pc.toNat + 1 ≤ s.codeSpan → s.HasBytesAtPc [b] →
    b ∉ prefixValues → b ≠ 0x0F → b ≠ 0xF5 → step s = .refused (.undecodable (.opcodeNotInMap (.one b)))

/-- Every two-byte opcode is refused as not in OPCODE_MAP (R90, R134, D30), and an opcode byte 0FH is refused either way: after whatever
prefixes, and whether or not the byte after it can be fetched (R134, R248, D30; entry 35). -/
def Obligations.TwoByteOpcodeRefused : Prop :=
  (∀ (s : State) (b : Byte), s.pc ≠ s.launch.codeEnd → s.pc.toNat + 2 ≤ s.codeSpan → s.HasBytesAtPc [0x0F, b] →
    step s = .refused (.undecodable (.opcodeNotInMap (.esc b)))) ∧
  ∀ (s : State) (ps : List PrefixByte), s.pc ≠ s.launch.codeEnd → s.pc.toNat + ps.length + 1 ≤ s.codeSpan →
    s.HasBytesAtPc (ps.map PrefixByte.byte ++ [0x0F]) → ∃ r, step s = .refused r

/-- "any of the eleven prefix byte values followed, after any further prefixes, by F5H" is refused (R151, D5), whatever the
number and order of the prefixes and whatever CODE_END is. -/
def Obligations.PrefixedCmcRefused : Prop :=
  ∀ (s : State) (ps : List PrefixByte), ps ≠ [] → s.pc ≠ s.launch.codeEnd →
    s.pc.toNat + ps.length + 1 ≤ s.codeSpan → s.HasBytesAtPc (ps.map PrefixByte.byte ++ [0xF5]) →
    ∃ r, step s = .refused r

/-- An instruction whose successor offset does not fit is refused (R26, R248, D23). -/
def Obligations.EndOfOffsetSpaceRefused : Prop :=
  ∀ s : State, s.pc ≠ s.launch.codeEnd → s.pc.toNat + 1 = s.codeSpan → s.HasBytesAtPc [0xF5] →
    step s = .refused .endOfOffsetSpace

/-- An instruction that straddles CODE_END is refused (R247, R248, D22). That the name is straddlesCodeEnd also for a prefixed opcode
outside OPCODE_MAP, which R133 would refuse first as not in OPCODE_MAP, is the model's choice (entry 11); the outcome kind is the
same (D5: reasons are informative). -/
def Obligations.StraddlingInstructionRefused : Prop :=
  ∀ (s : State) (i : Instr), i.wf = true → s.HasBytesAtPc (encode i) → s.pc.toNat < s.launch.codeEnd.toNat →
    s.launch.codeEnd.toNat < s.pc.toNat + (encode i).length → s.pc.toNat + (encode i).length ≤ s.codeSpan - 1 →
    step s = .refused .straddlesCodeEnd

/-- No step raises an exception (R219). -/
def Obligations.NoStepRaisesAnException : Prop :=
  ∀ (s : State) (name : ExceptionName) (number : Nat) (code : Option Nat) (pc : DWord),
    step s ≠ .fault (.exception name number code pc)

/-- Every step keeps the invariant: memory canonical, pc inside the offset space (R26: "`pc` therefore always fits its width"). -/
def Obligations.StepKeepsInvariant : Prop :=
  ∀ s t : State, s.Inv → step s = .next t → t.Inv

/-- The reset state meets the invariant (its values are the model's: entries 1 to 5). -/
def Obligations.ResetMeetsInvariant : Prop := State.reset.Inv

/-- Reset as the model chooses it, the spec giving no reset value: PRESUMED from G17 and G9 (entry 2); DESIGN CHOICE for the general
registers (entry 1), GDTR (entry 3), CODE_END (entry 4) and memory (entry 5). -/
def Obligations.ResetValuesPresumed : Prop :=
  State.reset.pc = 0xFFF0 ∧ State.reset.cf = false ∧ State.reset.launch.mode = .realAddress ∧
  State.reset.launch.defaultOperandSize = .s16 ∧ State.reset.launch.defaultAddressSize = .s16 ∧
  State.reset.launch.codeEnd = 0x00010000 ∧
  State.reset.sreg .cs = 0xF000 ∧ SegBases.get State.reset.launch.segBase .cs = 0xFFFF0000 ∧
  State.reset.addr .cs 0xFFF0 = 0xFFFFFFF0 ∧
  (∀ r, r ≠ .cs → State.reset.sreg r = 0 ∧ SegBases.get State.reset.launch.segBase r = 0) ∧ (∀ r, State.reset.r32 r = 0) ∧
  State.reset.idtr = ⟨0x03FF, 0⟩ ∧ State.reset.gdtr = ⟨0, 0⟩ ∧ ∀ a, Memory.get? State.reset.mem a = none

/-- The launch parameters and memory are constant over a step (R33, R66); so are the general, segment and descriptor table registers,
because the one instruction that answers a next state, CMC, changes CF and pc only (R150, D32, PRESUMED by G15: entry 32). -/
def Obligations.StepKeepsParametersAndMemory : Prop :=
  ∀ s t : State, step s = .next t →
    t.launch = s.launch ∧ t.mem = s.mem ∧ t.gdtr = s.gdtr ∧ t.idtr = s.idtr ∧ t.sregs = s.sregs ∧ t.gprs = s.gprs

/-- A table word placed by the host lies at pc, whatever the state (entry 7). -/
def Obligations.PlacedWordLiesAtPc : Prop :=
  ∀ (s : State) (nbits w : Nat), (s.withFetchWord nbits w).HasBytesAtPc (tableBytes nbits w) ∧
    (Memory.wf s.mem = true → Memory.wf (s.withFetchWord nbits w).mem = true)

/-! ## Exceptions (60_exceptions.md) -/

/-- Table 17-6: the nine exceptions and their interrupt numbers, and no number 9 or 15, none below 6 or above 16 (R201). -/
def Obligations.ExceptionNumbersAreTable17_6 : Prop :=
  [ExceptionName.ud, .nm, .df, .ts, .np, .ss, .gp, .pf, .mf].map interruptNumber = [6, 7, 8, 10, 11, 12, 13, 14, 16] ∧
  ∀ e, 6 ≤ interruptNumber e ∧ interruptNumber e ≤ 16 ∧ interruptNumber e ≠ 9 ∧ interruptNumber e ≠ 15

/-- Raising an exception stops the machine, recording the mnemonic, its number, the optional code and the pc (R207, D15). -/
def Obligations.RaiseRecordsNumberCodeAndPc : Prop :=
  ∀ (e : ExceptionName) (code : Option Nat) (s : State),
    raiseException e code s = .fault (.exception e (interruptNumber e) code s.pc)

/-! ## Prefixes (30_encoding.md) -/

/-- The six segment override prefixes, their bytes and register codes, and that each replaces the default segment (R85). -/
def Obligations.SegmentOverrideBytes : Prop :=
  (∀ x ∈ [((0x2E : Byte), SReg.cs, (1 : BitVec 3)), (0x36, .ss, 2), (0x3E, .ds, 3), (0x26, .es, 0), (0x64, .fs, 4), (0x65, .gs, 5)],
    PrefixByte.ofByte x.1 = some (.seg x.2.1) ∧ x.2.1.code = x.2.2) ∧
  ∀ (ps : List PrefixByte) (d r : SReg), onePerGroup ps = true → .seg r ∈ ps → segmentOf d ps = r

/-- At most one prefix of each group: a second one is refused at the byte where it stands, the same byte twice included (R87,
R88, D4). -/
def Obligations.SecondPrefixOfGroupRefused : Prop :=
  ∀ (ps : List PrefixByte) (p : PrefixByte) (rest : List Byte), onePerGroup ps = true →
    p.group ∈ ps.map PrefixByte.group →
    decode (ps.map PrefixByte.byte ++ p.byte :: rest) = .error (.repeatedGroup p)

/-- The prefix groups are accepted in any order (R88, D4): the same prefixes in another order decode to an instruction with the
same opcode, length, sizes and segment. -/
def Obligations.PrefixesAcceptedInAnyOrder : Prop :=
  ∀ (ps qs : List PrefixByte) (k : OpcodeKey) (rest : List Byte), ps ≠ [] → ps.Perm qs → onePerGroup ps = true →
    k.wf = true →
    ∃ i j, decode (ps.map PrefixByte.byte ++ (k.bytes ++ rest)) = .ok (i, ps.length + k.bytes.length) ∧
      decode (qs.map PrefixByte.byte ++ (k.bytes ++ rest)) = .ok (j, ps.length + k.bytes.length) ∧
      i.prefixes = ps ∧ j.prefixes = qs ∧ i.key = k ∧ j.key = k ∧
      (∀ A, operandSizeOf A ps = operandSizeOf A qs ∧ addressSizeOf A ps = addressSizeOf A qs) ∧
      ∀ d, segmentOf d ps = segmentOf d qs

/-- The attributes: the default, or 48 less the default with a 66H (67H) prefix (R89, D3). -/
def Obligations.SizeAttributesFollowPrefixes : Prop :=
  ∀ (d : Size) (ps : List PrefixByte),
    (operandSizeOf d ps).bits = (if PrefixByte.opSize ∈ ps then 48 - d.bits else d.bits) ∧
    (addressSizeOf d ps).bits = (if PrefixByte.adSize ∈ ps then 48 - d.bits else d.bits)

/-! ## Encoding -/

/-- Words written out from the table (R84, R85, R86, R150): each row's byte, before F5, decodes to the row's instruction, but for the
row REPE/REPZ, whose byte F3H decodes to the spelling REP (DEDUCED from conflict C12: entry 12) and of which the encoding is stated. -/
def Obligations.TableRowsDecode : Prop :=
  decode [0xF5] = .ok (.cmc, 1) ∧
  decode [0xF3, 0xF5] = .ok (.rep [] (.one 0xF5), 2) ∧ decode [0xF2, 0xF5] = .ok (.repneRepnz [] (.one 0xF5), 2) ∧
  decode [0xF0, 0xF5] = .ok (.lock [] (.one 0xF5), 2) ∧ decode [0x2E, 0xF5] = .ok (.csOverride [] (.one 0xF5), 2) ∧
  decode [0x36, 0xF5] = .ok (.ssOverride [] (.one 0xF5), 2) ∧ decode [0x3E, 0xF5] = .ok (.dsOverride [] (.one 0xF5), 2) ∧
  decode [0x26, 0xF5] = .ok (.esOverride [] (.one 0xF5), 2) ∧ decode [0x64, 0xF5] = .ok (.fsOverride [] (.one 0xF5), 2) ∧
  decode [0x65, 0xF5] = .ok (.gsOverride [] (.one 0xF5), 2) ∧ decode [0x66, 0xF5] = .ok (.opSizeOverride [] (.one 0xF5), 2) ∧
  decode [0x67, 0xF5] = .ok (.adSizeOverride [] (.one 0xF5), 2) ∧ encode (.repeRepz [] (.one 0xF5)) = [0xF3, 0xF5]

/-- DECODE OF ENCODE: for every well-formed instruction, decoding its bytes, whatever follows them, gives it back with its
length (REPE/REPZ in the spelling REP, conflict C12, entry 12). -/
def Obligations.DecodeInvertsEncode : Prop :=
  ∀ (i : Instr) (rest : List Byte), i.wf = true → decode (encode i ++ rest) = .ok (i.spelling, (encode i).length)

/-- ENCODE OF DECODE: what the decoder reads is a well-formed instruction whose bytes are the ones at the front, never in the spelling
REPE/REPZ (DEDUCED from conflict C12: entry 12), and no longer than fifteen bytes (PRESUMED, G11, D26: entry 24). -/
def Obligations.EncodeInvertsDecode : Prop :=
  ∀ (bytes : List Byte) (i : Instr) (n : Nat), decode bytes = .ok (i, n) →
    i.wf = true ∧ i.spelling = i ∧ encode i = bytes.take n ∧ n ≤ bytes.length ∧ 1 ≤ n ∧ n ≤ Config.maxInstructionLength

/-- The arms of the prefix rows refuse what the decoder of R133 refuses, for the same reason; and that decoder, at the default
OPCODE_MAP, accepts exactly the bytes the model's decoder reads as CMC. -/
def Obligations.ModelDecoderRefinesR133 : Prop :=
  ∀ (op ad : Size) (bytes : List Byte),
    (∀ d, decodeWith opcodeMap op ad bytes = .ok d ↔
      decode bytes = .ok (.cmc, 1) ∧
        d = { key := .one 0xF5, desc := cmcDescriptor, prefixes := [], operandSize := op, addressSize := ad, spec := none,
              last := [], length := 1 }) ∧
    ∀ i n s, decode bytes = .ok (i, n) → i ≠ .cmc →
      ∃ e, decodeWith opcodeMap op ad bytes = .error e ∧
        (exec i s = .refused (.undecodable e) ∨
          ∃ p, e = .prefixNotAdmitted p ∧ exec i s = .refused (.prefixWithoutEffect p))

/-- An instruction is its fields in order, for every opcode map: prefixes, opcode, ModR/M with SIB and displacement, last field;
it is no longer than the bytes or than MAX_INSTRUCTION_LENGTH, carries at most one prefix of a group and none its form does not
admit (R80 to R83, R87, R133). -/
def Obligations.InstructionIsItsFieldsInOrder : Prop :=
  ∀ (map : OpcodeMap) (op ad : Size) (bytes : List Byte) (d : Decoded), decodeWith map op ad bytes = .ok d →
    bytes.take d.length =
      d.prefixes.map PrefixByte.byte ++ d.key.bytes ++ ((d.spec.map encodeAddrSpec).getD []) ++ d.last ∧
    d.length ≤ bytes.length ∧ d.length ≤ Config.maxInstructionLength ∧
    d.last.length = d.desc.last.size d.operandSize d.addressSize ∧ onePerGroup d.prefixes = true ∧
    ∀ p ∈ d.prefixes, d.desc.admits p = true

/-! ## The address specifier -/

/-- The layout of the ModR/M and the SIB byte: bits 7:6, 5:3, 2:0, and the byte is `top * 64 + mid * 8 + low` (R93, R101). -/
def Obligations.ModRmAndSibLayout : Prop :=
  (∀ b : Byte, (topField b).toNat = b.toNat / 64 ∧ (midField b).toNat = b.toNat / 8 % 8 ∧ (lowField b).toNat = b.toNat % 8) ∧
  ∀ (t : BitVec 2) (m l : BitVec 3), (fieldsByte t m l).toNat = t.toNat * 64 + m.toNat * 8 + l.toNat

/-- DECODE OF ENCODE for address specifiers: every form that Tables 17-2 to 17-4 give a byte value is read back whole (R107 to
R109). -/
def Obligations.AddrSpecDecodeInvertsEncode : Prop :=
  ∀ (A : Size) (sp : AddrSpec) (rest : List Byte), sp.wf A = true →
    takeAddrSpec A (encodeAddrSpec sp ++ rest) = some (sp, rest)

/-- ENCODE OF DECODE for address specifiers. -/
def Obligations.AddrSpecEncodeInvertsDecode : Prop :=
  ∀ (A : Size) (bytes left : List Byte) (sp : AddrSpec), takeAddrSpec A bytes = some (sp, left) →
    sp.wf A = true ∧ bytes = encodeAddrSpec sp ++ left

/-- DecodeAddrSpec with A = 16 is the pseudocode of R106: the reg field, the default segment, the effective address modulo 2^16,
the length, for every ModR/M value with mod not 11 (R96 to R98; the reduction is D6, entry 16). -/
def Obligations.AddressSpecifier16 : Prop :=
  ∀ (s : State) (bytes : List Byte), 3 ≤ bytes.length → modN bytes ≠ 3 →
    decodeAddrSpec .s16 bytes s =
      some (midField (bytes.getD 0 0),
        .memory (if containsBp bytes then .ss else .ds) (BitVec.ofNat 32 ((sum16N s bytes + disp16N bytes) % 2 ^ 16)),
        length16N bytes)

/-- DecodeAddrSpec with A = 32 is the pseudocode of R106, for every ModR/M value with mod not 11 and every SIB value (R99 to
R105; the reduction is D6 and the default segment D7, entry 16). -/
def Obligations.AddressSpecifier32 : Prop :=
  ∀ (s : State) (bytes : List Byte), 6 ≤ bytes.length → modN bytes ≠ 3 →
    decodeAddrSpec .s32 bytes s =
      some (midField (bytes.getD 0 0),
        .memory (if !noBase bytes && (baseCodeN bytes == 4 || baseCodeN bytes == 5) then .ss else .ds)
          (BitVec.ofNat 32 ((base32N s bytes + scaledN s bytes + disp32N bytes) % 2 ^ 32)),
        length32N bytes)

/-- mod = 11 is a register operand under both address sizes, with no SIB byte and no displacement (R95). -/
def Obligations.RegisterFormUnderBothSizes : Prop :=
  ∀ (A : Size) (s : State) (m : Byte) (rest : List Byte), topField m = 3 →
    decodeAddrSpec A (m :: rest) s = some (midField m, .register (GReg.ofCode (lowField m)), 1)

/-- DecodeAddrSpec is total: with six bytes from the ModR/M byte on, every one has a result, of at most six bytes (R106). -/
def Obligations.AddressSpecifierIsTotal : Prop :=
  ∀ (A : Size) (s : State) (bytes : List Byte), 6 ≤ bytes.length →
    ∃ reg o n, decodeAddrSpec A bytes s = some (reg, o, n) ∧ 1 ≤ n ∧ n ≤ 6

/-- "The reg field never affects the address form": two ModR/M bytes that differ in reg only are read alike (R94). -/
def Obligations.RegFieldNeverAffectsForm : Prop :=
  ∀ (A : Size) (m m' : Byte) (rest : List Byte), topField m = topField m' → lowField m = lowField m' →
    (takeAddrSpec A (m :: rest)).map (fun x => (x.1.rm, x.2)) =
      (takeAddrSpec A (m' :: rest)).map (fun x => (x.1.rm, x.2))

/-- The SIB byte: a second addressing byte is read exactly for address size 32 and the 24 ModR/M values of R100. -/
def Obligations.SibBytePresence : Prop :=
  ∀ (A : Size) (m : Byte) (rest left : List Byte) (sp : AddrSpec), takeAddrSpec A (m :: rest) = some (sp, left) →
    (hasSib sp.rm = true ↔
      A = .s32 ∧ m ∈ [0x04, 0x0C, 0x14, 0x1C, 0x24, 0x2C, 0x34, 0x3C, 0x44, 0x4C, 0x54, 0x5C, 0x64, 0x6C, 0x74, 0x7C,
        0x84, 0x8C, 0x94, 0x9C, 0xA4, 0xAC, 0xB4, (0xBC : Byte)])

/-- "Default segment register is SS for the effective addresses containing a BP index, DS for other effective addresses" (R98). -/
def Obligations.DefaultSegment16 : Prop :=
  ∀ (s : State) (bytes : List Byte) (reg : BitVec 3) (seg : SReg) (ea : DWord) (n : Nat),
    decodeAddrSpec .s16 bytes s = some (reg, .memory seg ea, n) →
    seg = if rmN bytes = 2 ∨ rmN bytes = 3 ∨ (rmN bytes = 6 ∧ (modN bytes = 1 ∨ modN bytes = 2)) then .ss else .ds

/-- A segment override changes the segment of a memory operand and nothing else: not the effective address, not a register
operand; without one the default segment stands (R57, the note under the vectors of 95_test_vectors.md section 2.3). -/
def Obligations.OverrideChangesOnlyTheSegment : Prop :=
  ∀ (ps : List PrefixByte), onePerGroup ps = true →
    (∀ r, .seg r ∈ ps → (∀ seg ea, RmOperand.override ps (.memory seg ea) = .memory r ea) ∧
      ∀ q, RmOperand.override ps (.register q) = .register q) ∧
    ((∀ r, .seg r ∉ ps) → ∀ o, RmOperand.override ps o = o)

/-! ## Registers (10_state.md) -/

/-- A word register is bits 15:0 of its doubleword register; a word write gives it the value and leaves bits 31:16 of the cell as they
were; a doubleword write gives the doubleword register the value; and either leaves every other cell and all other state unchanged
(R20, R21, R23; the overlap is D19, general knowledge G2, entry 14). -/
def Obligations.WordWriteKeepsUpperHalf : Prop :=
  ∀ (s : State) (r : GReg) (v : Word) (w : DWord),
    (s.r16 r).toNat = (s.r32 r).toNat % 2 ^ 16 ∧ (s.setR16 r v).r16 r = v ∧
    ((s.setR16 r v).r32 r).extractLsb' 16 16 = (s.r32 r).extractLsb' 16 16 ∧
    (∀ q, q ≠ r → (s.setR16 r v).r32 q = s.r32 q) ∧ { s.setR16 r v with gprs := s.gprs } = s ∧
    (s.setR32 r w).r32 r = w ∧ (∀ q, q ≠ r → (s.setR32 r w).r32 q = s.r32 q) ∧ { s.setR32 r w with gprs := s.gprs } = s

/-- AL, CL, DL, BL (codes 0 to 3) are bits 7:0 of EAX, ECX, EDX, EBX, and AH, CH, DH, BH (codes 4 to 7) bits 15:8 of the same four. A
byte write changes that byte register and no other, leaves bits 31:16 of every cell unchanged, and leaves every cell but its own and
all other state unchanged (R22, R23, D19, G2, entry 14). -/
def Obligations.ByteWriteChangesItsByteOnly : Prop :=
  (∀ s : State, ∀ x ∈ [(GReg.eax, GReg.esp), (.ecx, .ebp), (.edx, .esi), (.ebx, .edi)],
    (s.r8 x.1).toNat = (s.r32 x.1).toNat % 256 ∧ (s.r8 x.2).toNat = (s.r32 x.1).toNat / 256 % 256 ∧
    ∀ (v : Byte) (q : GReg), q ≠ x.1 → (s.setR8 x.1 v).r32 q = s.r32 q ∧ (s.setR8 x.2 v).r32 q = s.r32 q) ∧
  ∀ (s : State) (r q : GReg) (v : Byte), (s.setR8 r v).r8 q = (if q = r then v else s.r8 q) ∧
    ((s.setR8 r v).r32 q).extractLsb' 16 16 = (s.r32 q).extractLsb' 16 16 ∧ { s.setR8 r v with gprs := s.gprs } = s

/-- Segment register codes: ES, CS, SS, DS, FS, GS are 0 to 5, codes 6 and 7 are assigned to none; a write changes the one
register it names and nothing else of the state (R28, R132, D24). -/
def Obligations.SegmentRegisterCodesAndWrites : Prop :=
  (∀ r c, SReg.ofCode c = some r ↔ r.code = c) ∧ SReg.ofCode 6 = none ∧ SReg.ofCode 7 = none ∧
  ∀ (s : State) (r : SReg) (v : Word), (s.setSreg r v).sreg r = v ∧ (∀ q, q ≠ r → (s.setSreg r v).sreg q = s.sreg q) ∧
    { s.setSreg r v with sregs := s.sregs } = s

/-- `BIT[r32[i], k]` and `BIT[r16[i], k]` inside and outside the register (R24; outside is D31). -/
def Obligations.BitOfRegister : Prop :=
  ∀ (w : Nat) (v : BitVec w) (k : Int),
    ((0 ≤ k ∧ k < w) → bitOfReg v k = .ok (v.toNat.testBit k.toNat)) ∧
    (¬ (0 ≤ k ∧ k < w) → bitOfReg v k = .error (.refuse .bitOffsetOutside))

/-- "for a signed bit offset k, the bit addressed is bit `k mod 8` of the byte at offset `BITBASE + floor(k / 8)`", with the two
drawings of Figure 17-4 (R55). -/
def Obligations.BitStringAddress : Prop :=
  (∀ (b k off : Int) (i : Nat), bitAddress b k = (off, i) ↔ i < 8 ∧ k = 8 * (off - b) + i) ∧
  (∀ b, bitAddress b 13 = (b + 1, 5)) ∧ (∀ b, bitAddress b (-11) = (b - 2, 5))

/-! ## Memory (20_memory.md) -/

/-- `Addr(seg, off) = (SEGBASE(seg) + off) mod 2^32`, for each of the six segment registers (R68; G20, entry 17). -/
def Obligations.AddressIsBasePlusOffset : Prop :=
  ∀ (s : State) (seg : SReg) (off : Nat),
    s.addr seg off = ((match seg with
      | .es => s.launch.segBase.es | .cs => s.launch.segBase.cs | .ss => s.launch.segBase.ss
      | .ds => s.launch.segBase.ds | .fs => s.launch.segBase.fs | .gs => s.launch.segBase.gs).toNat + off) % 2 ^ 32

/-- A read whose bytes are all in MEM answers the number with the byte at off least significant: it is below 2^(8n) and its byte
k is the one at Addr(seg, off + k) (R54, R68, D8). -/
def Obligations.MemReadIsLittleEndian : Prop :=
  ∀ (s : State) (A : Size) (seg : SReg) (off n : Nat), off + n ≤ 2 ^ A.bits →
    (∀ k < n, (Memory.get? s.mem (s.addr seg (off + k))).isSome) →
    ∃ v, s.memRead A seg off n = .ok v ∧ v < 256 ^ n ∧
      ∀ k < n, Memory.get? s.mem (s.addr seg (off + k)) = some (BitVec.ofNat 8 (v / 256 ^ k))

/-- When a read stops: refused exactly when `off + n > 2^A`, stuck exactly when it is not refused and a byte is outside MEM (R61,
R68, D10, D11). -/
def Obligations.MemReadStops : Prop :=
  ∀ (s : State) (A : Size) (seg : SReg) (off n : Nat),
    (s.memRead A seg off n = .error (.refuse .pastOffsetSpace) ↔ 2 ^ A.bits < off + n) ∧
    ((∃ a, s.memRead A seg off n = .error (.fault (.stuck a))) ↔
      off + n ≤ 2 ^ A.bits ∧ ∃ k < n, Memory.get? s.mem (s.addr seg (off + k)) = none)

/-- A write is admitted as a read is: it answers exactly when `off + n` is at most 2^A and MEM has every byte, is refused exactly past
the offset space, and is stuck exactly when it is not refused and a byte is outside MEM; and a read after it at the same place gives
the n bytes written (R68, D8, D10, D11). -/
def Obligations.MemReadAfterWrite : Prop :=
  ∀ (s : State) (A : Size) (seg : SReg) (off n v : Nat),
    ((∃ t, s.memWrite A seg off n v = .ok t) ↔
      off + n ≤ 2 ^ A.bits ∧ ∀ k < n, (Memory.get? s.mem (s.addr seg (off + k))).isSome) ∧
    (s.memWrite A seg off n v = .error (.refuse .pastOffsetSpace) ↔ 2 ^ A.bits < off + n) ∧
    ((∃ a, s.memWrite A seg off n v = .error (.fault (.stuck a))) ↔
      off + n ≤ 2 ^ A.bits ∧ ∃ k < n, Memory.get? s.mem (s.addr seg (off + k)) = none) ∧
    ∀ t, s.memWrite A seg off n v = .ok t → t.memRead A seg off n = .ok (v % 256 ^ n)

/-- The frame of a write: every byte outside Addr(seg, off), ..., Addr(seg, off + n - 1) reads as before, MEM has the same domain
and stays canonical, and nothing but memory changes (R61, R68). -/
def Obligations.MemWriteFrame : Prop :=
  ∀ (s t : State) (A : Size) (seg : SReg) (off n v : Nat), s.memWrite A seg off n v = .ok t →
    (∀ a, (∀ k < n, a ≠ s.addr seg (off + k)) → Memory.get? t.mem a = Memory.get? s.mem a) ∧
    (∀ a, (Memory.get? t.mem a).isSome = (Memory.get? s.mem a).isSome) ∧
    (Memory.wf s.mem = true → Memory.wf t.mem = true) ∧ { t with mem := s.mem } = s

/-- What LIDT and LGDT load from an m16&32 operand: the limit from the word, the base from the doubleword, in the register of
their own name and nowhere else (R30, R166, R167; the layout is D25, entry 19; no opcode runs it, entry 25; that all 32 bits of the
base are loaded whatever the operand size, with no privilege check, is the model's choice, entry 33). -/
def Obligations.TableLoadsSetLimitAndBase : Prop :=
  ∀ (s : State) (A : Size) (seg : SReg) (off limit base : Nat), off + 6 ≤ 2 ^ A.bits →
    s.memRead A seg off 2 = .ok limit → s.memRead A seg (off + 2) 4 = .ok base →
    s.loadIdtr A seg off = .ok { s with idtr := ⟨BitVec.ofNat 16 limit, BitVec.ofNat 32 base⟩ } ∧
    s.loadGdtr A seg off = .ok { s with gdtr := ⟨BitVec.ofNat 16 limit, BitVec.ofNat 32 base⟩ }

/-! ## Immediates, targets, opcode registers, timing -/

/-- imm8 with a word or doubleword operand keeps its signed value, and "The upper byte of the word is filled with the topmost bit
of the immediate value" (R122). -/
def Obligations.Imm8IsSignExtended : Prop :=
  ∀ ib : Byte, (imm8As .word ib).toInt = ib.toInt ∧ (imm8As .dword ib).toInt = ib.toInt ∧
    (imm8As .word ib).extractLsb' 8 8 = (if ib.msb then 0xFF else 0x00) ∧ -128 ≤ ib.toInt ∧ ib.toInt ≤ 127

/-- rel8 is an address "from 128 bytes before the end of the instruction to 127 bytes after the end of the instruction", and each
such address is reached by one field value (R116). -/
def Obligations.Rel8CountsFromTheEnd : Prop :=
  ∀ (pc : DWord) (L : Nat) (target : Int),
    (∃ rel : Byte, relTarget pc L rel = target) ↔ pc.toNat + L - 128 ≤ target ∧ target ≤ pc.toNat + L + 127

/-- The eight register codes: EAX 0, ECX 1, EDX 2, EBX 3, ESP 4, EBP 5, ESI 6, EDI 7, both ways (R20, R115). `XX +rb`, `+rw`, `+rd`: the
code is added to XX to form the opcode byte, and recovered from it by subtraction, for every XX that leaves room for the eight codes
(R115). -/
def Obligations.OpcodeRegisterCode : Prop :=
  ([GReg.eax, .ecx, .edx, .ebx, .esp, .ebp, .esi, .edi].map fun r => r.code.toNat) = [0, 1, 2, 3, 4, 5, 6, 7] ∧
  ([0, 1, 2, 3, 4, 5, 6, 7].map GReg.ofCode) = [GReg.eax, .ecx, .edx, .ebx, .esp, .ebp, .esi, .edi] ∧
  ∀ (xx : Byte) (r : GReg), xx.toNat ≤ 248 →
    (opcodeWithReg xx r).toNat = xx.toNat + r.code.toNat ∧ regOfOpcode xx (opcodeWithReg xx r) = some r

/-- Clocks: CMC 2, and Table 17-5 (R244, R245). -/
def Obligations.ClocksAsTranscribed : Prop :=
  clocksOf .cmc = some 2 ∧
  taskSwitchClocks .tss386vm0 .tss386vm0 = some 309 ∧ taskSwitchClocks .tss386vm0 .tss286 = some 282 ∧
  taskSwitchClocks .tss386vm1 .tss386vm0 = some 314 ∧ taskSwitchClocks .tss386vm1 .tss286 = some 231 ∧
  taskSwitchClocks .tss286 .tss386vm0 = some 307 ∧ taskSwitchClocks .tss286 .tss286 = some 282
end

