-- ==== Sys2Proof/Laws/AddrSpec.lean ====
section
/-! SUPPORT. The fields of the ModR/M and SIB bytes, the register codes and the displacement readers, each with its inverse
(R93, R96, R99, R101 to R103). -/

namespace Sys2Proof

/-! ### Fields -/

@[simp] theorem topField_fieldsByte : ∀ (t : BitVec 2) (m l : BitVec 3), topField (fieldsByte t m l) = t := by decide
@[simp] theorem midField_fieldsByte : ∀ (t : BitVec 2) (m l : BitVec 3), midField (fieldsByte t m l) = m := by decide
@[simp] theorem lowField_fieldsByte : ∀ (t : BitVec 2) (m l : BitVec 3), lowField (fieldsByte t m l) = l := by decide
@[simp] theorem fieldsByte_fields : ∀ b : Byte, fieldsByte (topField b) (midField b) (lowField b) = b := by decide

/-! ### Codes -/

@[simp] theorem GReg.ofCode_code (r : GReg) : GReg.ofCode r.code = r := by cases r <;> rfl
@[simp] theorem GReg.code_ofCode : ∀ c : BitVec 3, (GReg.ofCode c).code = c := by decide
@[simp] theorem Base16.ofCode_code (b : Base16) : Base16.ofCode b.code = b := by cases b <;> rfl
@[simp] theorem Base16.code_ofCode : ∀ c : BitVec 3, (Base16.ofCode c).code = c := by decide
@[simp] theorem Scale.ofCode_code (x : Scale) : Scale.ofCode x.code = x := by cases x <;> rfl
@[simp] theorem Scale.code_ofCode : ∀ c : BitVec 2, (Scale.ofCode c).code = c := by decide

theorem indexOfCode_indexCode {x : Option GReg} (h : indexWf x = true) : indexOfCode (indexCode x) = x := by
  cases x with
  | none => rfl
  | some r => cases r <;> first | rfl | cases h

@[simp] theorem indexCode_indexOfCode : ∀ c : BitVec 3, indexCode (indexOfCode c) = c := by decide
@[simp] theorem indexWf_indexOfCode : ∀ c : BitVec 3, indexWf (indexOfCode c) = true := by decide

/-! ### Words and displacements -/

@[simp] theorem leWord_bytes (v : Word) : leWord (byteOf v 0) (byteOf v 1) = v := by
  apply BitVec.eq_of_getLsbD_eq
  intro i hi
  rw [leWord, BitVec.getLsbD_append]
  split <;> rename_i h <;> simp [byteOf, h, show i - 8 < 8 by omega]
  congr 1; omega

@[simp] theorem leDWord_bytes (v : DWord) : leDWord (byteOf v 0) (byteOf v 1) (byteOf v 2) (byteOf v 3) = v := by
  apply BitVec.eq_of_getLsbD_eq
  intro i hi
  rw [leDWord, BitVec.getLsbD_append]
  by_cases h0 : i < 8
  · simp [byteOf, h0]
  · rw [if_neg h0, BitVec.getLsbD_append]
    by_cases h1 : i - 8 < 8
    · rw [if_pos h1]; simp [byteOf, h1]; congr 1; omega
    · rw [if_neg h1, BitVec.getLsbD_append]
      by_cases h2 : i - 8 - 8 < 8
      · rw [if_pos h2]; simp [byteOf, h2]; congr 1; omega
      · rw [if_neg h2]; simp [byteOf, show i - 8 - 8 - 8 < 8 by omega]; congr 1; omega

@[simp] theorem byteOf_leWord (b0 b1 : Byte) : wordBytes (leWord b0 b1) = [b0, b1] := by
  have h0 : byteOf (leWord b0 b1) 0 = b0 := by
    apply BitVec.eq_of_getLsbD_eq; intro i hi
    rw [byteOf, BitVec.getLsbD_extractLsb', leWord, BitVec.getLsbD_append, if_pos (by omega)]
    simp [hi]
  have h1 : byteOf (leWord b0 b1) 1 = b1 := by
    apply BitVec.eq_of_getLsbD_eq; intro i hi
    rw [byteOf, BitVec.getLsbD_extractLsb', leWord, BitVec.getLsbD_append, if_neg (by omega)]
    simp [hi, show 8 * 1 + i - 8 = i by omega]
  rw [wordBytes, h0, h1]

@[simp] theorem byteOf_leDWord (b0 b1 b2 b3 : Byte) : dwordBytes (leDWord b0 b1 b2 b3) = [b0, b1, b2, b3] := by
  have h0 : byteOf (leDWord b0 b1 b2 b3) 0 = b0 := by
    apply BitVec.eq_of_getLsbD_eq; intro i hi
    rw [byteOf, BitVec.getLsbD_extractLsb', leDWord, BitVec.getLsbD_append, if_pos (by omega)]
    simp [hi]
  have h1 : byteOf (leDWord b0 b1 b2 b3) 1 = b1 := by
    apply BitVec.eq_of_getLsbD_eq; intro i hi
    rw [byteOf, BitVec.getLsbD_extractLsb', leDWord, BitVec.getLsbD_append, if_neg (by omega), BitVec.getLsbD_append,
      if_pos (by omega)]
    simp [hi, show 8 * 1 + i - 8 = i by omega]
  have h2 : byteOf (leDWord b0 b1 b2 b3) 2 = b2 := by
    apply BitVec.eq_of_getLsbD_eq; intro i hi
    rw [byteOf, BitVec.getLsbD_extractLsb', leDWord, BitVec.getLsbD_append, if_neg (by omega), BitVec.getLsbD_append,
      if_neg (by omega), BitVec.getLsbD_append, if_pos (by omega)]
    simp [hi, show 8 * 2 + i - 8 - 8 = i by omega]
  have h3 : byteOf (leDWord b0 b1 b2 b3) 3 = b3 := by
    apply BitVec.eq_of_getLsbD_eq; intro i hi
    rw [byteOf, BitVec.getLsbD_extractLsb', leDWord, BitVec.getLsbD_append, if_neg (by omega), BitVec.getLsbD_append,
      if_neg (by omega), BitVec.getLsbD_append, if_neg (by omega)]
    simp [hi, show 8 * 3 + i - 8 - 8 - 8 = i by omega]
  rw [dwordBytes, h0, h1, h2, h3]

@[simp] theorem takeWord_bytes (v : Word) (rest : List Byte) : takeWord (wordBytes v ++ rest) = some (v, rest) := by
  simp [wordBytes, takeWord]

@[simp] theorem takeDWord_bytes (v : DWord) (rest : List Byte) : takeDWord (dwordBytes v ++ rest) = some (v, rest) := by
  simp [dwordBytes, takeDWord]

theorem takeWord_some {bytes rest : List Byte} {v : Word} (h : takeWord bytes = some (v, rest)) :
    bytes = wordBytes v ++ rest := by
  unfold takeWord at h
  split at h
  · cases h; simp
  · cases h

theorem takeDWord_some {bytes rest : List Byte} {v : DWord} (h : takeDWord bytes = some (v, rest)) :
    bytes = dwordBytes v ++ rest := by
  unfold takeDWord at h
  split at h
  · cases h; simp
  · cases h

/-- Reading a displacement back from its bytes under its own mod. -/
theorem takeDisp_bytes {w : Nat} {full : List Byte → Option (BitVec w × List Byte)} {bs : BitVec w → List Byte}
    (hf : ∀ v rest, full (bs v ++ rest) = some (v, rest)) (d : Disp w) (rest : List Byte) :
    takeDisp full d.md (d.bytes bs ++ rest) = some (d, rest) := by
  cases d <;> simp [takeDisp, Disp.md, Disp.bytes, hf]

/-- What reading a displacement returns: one whose mod and bytes are those read. -/
theorem takeDisp_some {w : Nat} {full : List Byte → Option (BitVec w × List Byte)} {bs : BitVec w → List Byte}
    (hf : ∀ bytes v rest, full bytes = some (v, rest) → bytes = bs v ++ rest) {md : BitVec 2} (hmd : md ≠ 3)
    {bytes rest : List Byte} {d : Disp w} (h : takeDisp full md bytes = some (d, rest)) :
    d.md = md ∧ bytes = d.bytes bs ++ rest := by
  have h2 : md = 0 ∨ md = 1 ∨ md = 2 := by clear h; revert hmd; revert md; decide
  unfold takeDisp at h
  rcases h2 with rfl | rfl | rfl
  · cases h; exact ⟨rfl, rfl⟩
  · cases bytes with
    | nil => cases h
    | cons b l => cases h; exact ⟨rfl, rfl⟩
  · rw [if_neg (by decide), if_neg (by decide), Option.map_eq_some_iff] at h
    obtain ⟨⟨v, r⟩, hv, he⟩ := h
    cases he
    exact ⟨rfl, hf _ _ _ hv⟩

theorem Disp.md_ne_three {w : Nat} (d : Disp w) : d.md ≠ 3 := by cases d <;> simp [Disp.md]

theorem Disp.md_eq_zero_iff {w : Nat} (d : Disp w) : d.md = 0 ↔ d = .none := by
  cases d <;> simp [Disp.md]

/-! ### Forms -/

/-- Reading from a first byte: a register, or the table of the address size (R95, R106). -/
theorem takeAddrSpec_cons (A : Size) (m : Byte) (rest : List Byte) :
    takeAddrSpec A (m :: rest) =
      if topField m = 3 then some (⟨midField m, .reg (GReg.ofCode (lowField m))⟩, rest)
      else (match A with
        | .s16 => takeForm16 (topField m) (lowField m) rest
        | .s32 => takeForm32 (topField m) (lowField m) rest).map fun (f, left) => (⟨midField m, f⟩, left) := rfl

/-- mod = 11 is read as a register, with nothing after it (R95). -/
theorem takeAddrSpec_reg (A : Size) (reg low : BitVec 3) (rest : List Byte) :
    takeAddrSpec A (fieldsByte 3 reg low :: rest) = some (⟨reg, .reg (GReg.ofCode low)⟩, rest) := by
  rw [takeAddrSpec_cons, if_pos (topField_fieldsByte ..), midField_fieldsByte, lowField_fieldsByte]

/-- mod not 11 is read by the 16-bit table (R96, R97). -/
theorem takeAddrSpec_16 {md : BitVec 2} (h : md ≠ 3) (reg low : BitVec 3) (rest : List Byte) :
    takeAddrSpec .s16 (fieldsByte md reg low :: rest) =
      (takeForm16 md low rest).map fun (f, left) => (⟨reg, f⟩, left) := by
  rw [takeAddrSpec_cons, if_neg (by rwa [topField_fieldsByte]), midField_fieldsByte, lowField_fieldsByte, topField_fieldsByte]

/-- mod not 11 is read by the 32-bit tables (R99 to R103). -/
theorem takeAddrSpec_32 {md : BitVec 2} (h : md ≠ 3) (reg low : BitVec 3) (rest : List Byte) :
    takeAddrSpec .s32 (fieldsByte md reg low :: rest) =
      (takeForm32 md low rest).map fun (f, left) => (⟨reg, f⟩, left) := by
  rw [takeAddrSpec_cons, if_neg (by rwa [topField_fieldsByte]), midField_fieldsByte, lowField_fieldsByte, topField_fieldsByte]

theorem fieldsByte_eq (m : Byte) {t : BitVec 2} {l : BitVec 3} (h1 : topField m = t) (h2 : lowField m = l) :
    fieldsByte t (midField m) l = m := by
  subst h1 h2; exact fieldsByte_fields m

end Sys2Proof
end

