-- ==== Sys2Proof/Laws/PerInstr.lean ====
section
/-! SUPPORT. Laws proved once per constructor of Instr. EncodingLayout: the bytes of an instruction are its prefixes in their
order and then its opcode (R80), and the first of them is its table row's value (R136). -/

namespace Sys2Proof.Laws.EncodingLayout

/-- The table row's `match` byte (spec/opcode_table.json). -/
def rowByte : Instr → Byte
  | .cmc                => 0xF5
  | .rep _ _            => 0xF3
  | .repeRepz _ _       => 0xF3
  | .repneRepnz _ _     => 0xF2
  | .lock _ _           => 0xF0
  | .csOverride _ _     => 0x2E
  | .ssOverride _ _     => 0x36
  | .dsOverride _ _     => 0x3E
  | .esOverride _ _     => 0x26
  | .fsOverride _ _     => 0x64
  | .gsOverride _ _     => 0x65
  | .opSizeOverride _ _ => 0x66
  | .adSizeOverride _ _ => 0x67

/-- The layout of an instruction's encoding. -/
def Statement (i : Instr) : Prop :=
  encode i = i.prefixes.map PrefixByte.byte ++ i.key.bytes ∧ (encode i).head? = some (rowByte i)

theorem cmc : Statement .cmc := ⟨rfl, rfl⟩
theorem rep (more : List PrefixByte) (op : OpcodeKey) : Statement (.rep more op) := ⟨rfl, rfl⟩
theorem repeRepz (more : List PrefixByte) (op : OpcodeKey) : Statement (.repeRepz more op) := ⟨rfl, rfl⟩
theorem repneRepnz (more : List PrefixByte) (op : OpcodeKey) : Statement (.repneRepnz more op) := ⟨rfl, rfl⟩
theorem lock (more : List PrefixByte) (op : OpcodeKey) : Statement (.lock more op) := ⟨rfl, rfl⟩
theorem csOverride (more : List PrefixByte) (op : OpcodeKey) : Statement (.csOverride more op) := ⟨rfl, rfl⟩
theorem ssOverride (more : List PrefixByte) (op : OpcodeKey) : Statement (.ssOverride more op) := ⟨rfl, rfl⟩
theorem dsOverride (more : List PrefixByte) (op : OpcodeKey) : Statement (.dsOverride more op) := ⟨rfl, rfl⟩
theorem esOverride (more : List PrefixByte) (op : OpcodeKey) : Statement (.esOverride more op) := ⟨rfl, rfl⟩
theorem fsOverride (more : List PrefixByte) (op : OpcodeKey) : Statement (.fsOverride more op) := ⟨rfl, rfl⟩
theorem gsOverride (more : List PrefixByte) (op : OpcodeKey) : Statement (.gsOverride more op) := ⟨rfl, rfl⟩
theorem opSizeOverride (more : List PrefixByte) (op : OpcodeKey) : Statement (.opSizeOverride more op) := ⟨rfl, rfl⟩
theorem adSizeOverride (more : List PrefixByte) (op : OpcodeKey) : Statement (.adSizeOverride more op) := ⟨rfl, rfl⟩

end Sys2Proof.Laws.EncodingLayout
end

