-- ==== Sys2Proof/Laws/Decode.lean ====
section
/-! SUPPORT. What each part of the decoder can do (R84 to R88, R90, R133): the prefix scan, the opcode key, the constructor a
first prefix selects. -/

namespace Sys2Proof

/-! ### Prefix bytes -/

@[simp] theorem PrefixByte.ofByte_byte (p : PrefixByte) : PrefixByte.ofByte p.byte = some p := by
  cases p with
  | seg r => cases r <;> rfl
  | _ => rfl

theorem PrefixByte.byte_of_ofByte {b : Byte} {p : PrefixByte} (h : PrefixByte.ofByte b = some p) : p.byte = b := by
  unfold PrefixByte.ofByte at h
  apply BitVec.eq_of_toNat_eq
  split at h <;> first | contradiction | (cases h; simp_all [PrefixByte.byte])

/-- The bytes that are no prefix are the ones outside the eleven values (R87). -/
theorem PrefixByte.ofByte_eq_none_iff : ∀ b : Byte, PrefixByte.ofByte b = none ↔ prefixValues.contains b = false := by
  decide

/-! ### The prefix scan -/

/-- Scanning the bytes of admissible prefixes gives them back, with what follows them. -/
theorem scanPrefixes_bytes {b : Byte} (hb : PrefixByte.ofByte b = none) (rest : List Byte) (ps : List PrefixByte) :
    ∀ seen : List PrefixGroup, onePerGroup ps = true → (∀ p ∈ ps, seen.contains p.group = false) →
      scanPrefixes seen (ps.map PrefixByte.byte ++ b :: rest) = .ok (ps, b :: rest) := by
  induction ps with
  | nil => intro seen _ _; simp [scanPrefixes, hb]
  | cons p ps ih =>
    intro seen h1 hs
    simp only [onePerGroup, Bool.and_eq_true, Bool.not_eq_true'] at h1
    have hp : seen.contains p.group = false := hs p (by simp)
    have hrest := ih (p.group :: seen) h1.2 fun q hq => by
      have hq1 := hs q (by simp [hq])
      have hne : q.group ≠ p.group := fun he => by
        have : (ps.map PrefixByte.group).contains p.group = true := by
          rw [List.contains_iff_mem]
          exact List.mem_map.mpr ⟨q, hq, he⟩
        rw [this] at h1
        exact absurd h1.1 (by simp)
      rw [List.contains_cons, hq1, Bool.or_false]
      exact beq_false_of_ne hne
    have hp' : p.group ∉ seen := by simpa using hp
    simp [scanPrefixes, hp', hrest]

/-- A successful scan: the bytes are those of the prefixes and then what is left, which begins with no prefix byte; the
prefixes are one of a group and none of a group seen before (R87, R88). -/
theorem scanPrefixes_ok {bytes : List Byte} {ps : List PrefixByte} {left : List Byte} :
    ∀ {seen : List PrefixGroup}, scanPrefixes seen bytes = .ok (ps, left) →
      bytes = ps.map PrefixByte.byte ++ left ∧ onePerGroup ps = true ∧ (∀ p ∈ ps, seen.contains p.group = false) ∧
        ∃ b l, left = b :: l ∧ PrefixByte.ofByte b = none := by
  induction bytes generalizing ps left with
  | nil => intro seen h; simp [scanPrefixes] at h
  | cons b rest ih =>
    intro seen h
    simp only [scanPrefixes] at h
    split at h
    · rename_i hb; cases h; exact ⟨rfl, rfl, by simp, b, rest, rfl, hb⟩
    · rename_i p hb
      split at h
      · cases h
      · rename_i hns
        split at h
        · rename_i ps' left' hr
          cases h
          obtain ⟨h1, h2, h3, h4⟩ := ih hr
          have hpb := PrefixByte.byte_of_ofByte hb
          refine ⟨by simp [hpb, ← h1], ?_, ?_, h4⟩
          · simp only [onePerGroup, h2, Bool.and_true, Bool.not_eq_true']
            rw [Bool.eq_false_iff, ne_eq, List.contains_iff_mem, List.mem_map]
            rintro ⟨q, hq, he⟩
            have := h3 q hq
            simp [he] at this
          · intro q hq
            rcases List.mem_cons.mp hq with rfl | hq
            · simpa using hns
            · have := h3 q hq
              simp only [List.contains_cons, Bool.or_eq_false_iff] at this
              exact this.2
        · cases h

/-- A scan that reaches a second prefix of a group refuses it by name (R88). -/
theorem scanPrefixes_repeated (p : PrefixByte) (rest : List Byte) (ps : List PrefixByte) :
    ∀ seen : List PrefixGroup, onePerGroup ps = true → (∀ q ∈ ps, seen.contains q.group = false) →
      (seen.contains p.group = true ∨ p.group ∈ ps.map PrefixByte.group) →
      scanPrefixes seen (ps.map PrefixByte.byte ++ p.byte :: rest) = .error (.repeatedGroup p) := by
  induction ps with
  | nil =>
    intro seen _ _ h
    have h' : p.group ∈ seen := by simpa using h
    simp [scanPrefixes, h']
  | cons q ps ih =>
    intro seen h1 hs h
    simp only [onePerGroup, Bool.and_eq_true, Bool.not_eq_true'] at h1
    have hq : seen.contains q.group = false := hs q (by simp)
    have hrest := ih (q.group :: seen) h1.2
      (fun r hr => by
        have hr1 := hs r (by simp [hr])
        have hne : r.group ≠ q.group := fun he => by
          have : (ps.map PrefixByte.group).contains q.group = true := by
            rw [List.contains_iff_mem]
            exact List.mem_map.mpr ⟨r, hr, he⟩
          rw [this] at h1
          exact absurd h1.1 (by simp)
        rw [List.contains_cons, hr1, Bool.or_false]
        exact beq_false_of_ne hne)
      (by
        rcases h with h | h
        · exact .inl (by rw [List.contains_cons, h, Bool.or_true])
        · rcases List.mem_cons.mp h with h | h
          · exact .inl (by simp [h])
          · exact .inr h)
    have hq' : q.group ∉ seen := by simpa using hq
    simp [scanPrefixes, hq', hrest]

/-- A scan fails only by running out of bytes or by a second prefix of a group. -/
theorem scanPrefixes_error {bytes : List Byte} {e : DecodeError} :
    ∀ {seen : List PrefixGroup}, scanPrefixes seen bytes = .error e → e = .truncated ∨ ∃ p, e = .repeatedGroup p := by
  induction bytes with
  | nil => intro seen h; simp only [scanPrefixes, Except.error.injEq] at h; exact .inl h.symm
  | cons b rest ih =>
    intro seen h
    simp only [scanPrefixes] at h
    split at h
    · cases h
    · rename_i p _
      split at h
      · cases h; exact .inr ⟨p, rfl⟩
      · split at h
        · cases h
        · rename_i hr; cases h; exact ih hr

/-! ### The opcode key -/

theorem readKey_bytes {map : OpcodeMap} {k : OpcodeKey} (h : k.wf = true) (rest : List Byte) :
    readKey map (k.bytes ++ rest) = .ok (k, rest) := by
  cases k with
  | one b =>
    have hb : b ≠ 0x0F := by
      intro he; subst he; exact absurd h (by decide)
    exact if_neg hb
  | esc b => rfl

theorem readKey_ok {map : OpcodeMap} {l rest : List Byte} {k : OpcodeKey} (h : readKey map l = .ok (k, rest)) :
    l = k.bytes ++ rest ∧ ∀ b ∈ l.head?, PrefixByte.ofByte b = none → k.wf = true := by
  cases l with
  | nil => cases h
  | cons b l =>
    simp only [readKey] at h
    split at h
    · rename_i hb
      cases l with
      | nil => cases h
      | cons b2 l => cases h; subst hb; exact ⟨rfl, fun _ _ _ => rfl⟩
    · rename_i hb
      cases h
      refine ⟨rfl, fun x hx hn => ?_⟩
      simp only [List.head?_cons, Option.mem_def, Option.some.injEq] at hx
      subst hx
      have hc := (PrefixByte.ofByte_eq_none_iff b).mp hn
      rw [OpcodeKey.wf, hc, Bool.not_false, Bool.true_and, bne_iff_ne]
      exact hb

/-- At the default map the key fails only where no byte is left, or on 0FH as the last byte, which is refused (R134, D30). -/
theorem readKey_error {l : List Byte} {e : DecodeError} (h : readKey opcodeMap l = .error e) :
    (l = [] ∧ e = .truncated) ∨ (l = [0x0F] ∧ e = .opcodeNotInMap (.one 0x0F)) := by
  cases l with
  | nil => cases h; exact .inl ⟨rfl, rfl⟩
  | cons b l =>
    simp only [readKey] at h
    split at h
    · rename_i hb
      cases l with
      | nil => cases h; exact .inr ⟨by rw [hb], rfl⟩
      | cons b2 l => cases h
    · cases h

/-- A well-formed key begins with a byte that is no prefix. -/
theorem OpcodeKey.bytes_head {k : OpcodeKey} (h : k.wf = true) :
    ∃ b l, k.bytes = b :: l ∧ PrefixByte.ofByte b = none := by
  cases k with
  | one b =>
    refine ⟨b, [], rfl, (PrefixByte.ofByte_eq_none_iff b).mpr ?_⟩
    simp only [OpcodeKey.wf, Bool.and_eq_true, Bool.not_eq_true'] at h
    exact h.1
  | esc b => exact ⟨0x0F, [b], rfl, rfl⟩

/-! ### The constructor of a first prefix -/

@[simp] theorem instrOfFirst_prefixes (p : PrefixByte) (more : List PrefixByte) (op : OpcodeKey) :
    (instrOfFirst p more op).prefixes = p :: more := by
  cases p with
  | seg r => cases r <;> rfl
  | _ => rfl

@[simp] theorem instrOfFirst_key (p : PrefixByte) (more : List PrefixByte) (op : OpcodeKey) :
    (instrOfFirst p more op).key = op := by
  cases p with
  | seg r => cases r <;> rfl
  | _ => rfl

@[simp] theorem instrOfFirst_spelling (p : PrefixByte) (more : List PrefixByte) (op : OpcodeKey) :
    (instrOfFirst p more op).spelling = instrOfFirst p more op := by
  cases p with
  | seg r => cases r <;> rfl
  | _ => rfl

/-- An instruction with prefixes is, up to its spelling, the one its first prefix selects. -/
theorem Instr.spelling_eq {i : Instr} {p : PrefixByte} {more : List PrefixByte} (h : i.prefixes = p :: more) :
    i.spelling = instrOfFirst p more i.key := by
  cases i <;> simp only [Instr.prefixes, List.cons.injEq, reduceCtorEq] at h <;> obtain ⟨rfl, rfl⟩ := h <;> rfl

/-- An instruction without prefixes is CMC. -/
theorem Instr.eq_cmc {i : Instr} (h : i.prefixes = []) : i = .cmc := by
  cases i <;> first | rfl | cases h

/-- The layout of every encoding (R80), from its per-constructor law. -/
theorem encode_layout (i : Instr) : encode i = i.prefixes.map PrefixByte.byte ++ i.key.bytes := by
  cases i <;> rfl

/-! ### Lengths (R81, R87) -/

/-- There are four groups, so at most four prefixes (R87). -/
theorem onePerGroup_length_le {ps : List PrefixByte} (h : onePerGroup ps = true) : ps.length ≤ 4 := by
  have hn : (ps.map PrefixByte.group).Nodup := by
    induction ps with
    | nil => simp
    | cons p ps ih =>
      simp only [onePerGroup, Bool.and_eq_true, Bool.not_eq_true', Bool.eq_false_iff, ne_eq, List.contains_iff_mem] at h
      rw [List.map_cons, List.nodup_cons]
      exact ⟨h.1, ih h.2⟩
  have hsub : ps.map PrefixByte.group ⊆ [.instruction, .addressSize, .operandSize, .segmentOverride] := by
    intro g _; cases g <;> simp
  simpa using (List.subperm_of_subset hn hsub).length_le

theorem OpcodeKey.bytes_length (k : OpcodeKey) : 1 ≤ k.bytes.length ∧ k.bytes.length ≤ 2 := by
  cases k <;> simp [OpcodeKey.bytes]

/-- An instruction of the table is one to six bytes long. -/
theorem encode_length {i : Instr} (h : i.wf = true) : 1 ≤ (encode i).length ∧ (encode i).length ≤ 6 := by
  simp only [Instr.wf, Bool.and_eq_true] at h
  have h1 := onePerGroup_length_le h.1
  have h2 := OpcodeKey.bytes_length i.key
  rw [encode_layout, List.length_append, List.length_map]
  omega

/-! ### The opcode map -/

/-- The opcode map has one key (R134, R136). -/
theorem lookupKey_opcodeMap (k : OpcodeKey) :
    lookupKey opcodeMap k = if k = .one 0xF5 then some (.form cmcDescriptor) else none := by
  simp [opcodeMap, lookupKey, eq_comm]

/-- One prefix of a group: the groups have no repeats (R87). -/
theorem onePerGroup_iff_nodup {ps : List PrefixByte} : onePerGroup ps = true ↔ (ps.map PrefixByte.group).Nodup := by
  induction ps with
  | nil => simp [onePerGroup]
  | cons p ps ih => simp [onePerGroup, ih, List.nodup_cons]

/-- An opcode outside the map, with no prefix, is refused by name (R134). -/
theorem decode_opcodeNotInMap {k : OpcodeKey} (h : k.wf = true) (hk : k ≠ .one 0xF5) (rest : List Byte) :
    decode (k.bytes ++ rest) = .error (.opcodeNotInMap k) := by
  obtain ⟨b, l, hb, hn⟩ := OpcodeKey.bytes_head h
  have hs : scanPrefixes [] (k.bytes ++ rest) = .ok ([], k.bytes ++ rest) := by
    rw [hb, List.cons_append]; exact scanPrefixes_bytes hn _ [] _ rfl (by simp)
  unfold decode
  simp only [hs, readKey_bytes h, lookupKey_opcodeMap, if_neg hk]
  rfl

end Sys2Proof
end

