-- ==== Sys2Proof/Laws/Memory.lean ====
section
/-! SUPPORT. Memory: read after write, the canonical form, and what the byte-string reads and writes can do (R54, R61, R68). -/

namespace Sys2Proof.Machine

/-! ### One byte -/

@[simp] theorem Memory.get?_put_same (m : Memory) (a : Nat) (v : Byte) : Memory.get? (Memory.put m a v) a = some v := by
  induction m with
  | nil => simp [Memory.put, Memory.get?]
  | cons c m ih =>
    obtain ⟨a', b⟩ := c
    simp only [Memory.put]
    split
    · simp [Memory.get?]
    · split
      · simp [Memory.get?]
      · rename_i h; simp [Memory.get?, h, ih]

theorem Memory.get?_put_ne (m : Memory) {a x : Nat} (v : Byte) (h : x ≠ a) :
    Memory.get? (Memory.put m a v) x = Memory.get? m x := by
  induction m with
  | nil => simp [Memory.put, Memory.get?, Ne.symm h]
  | cons c m ih =>
    obtain ⟨a', b⟩ := c
    simp only [Memory.put]
    split
    · simp [Memory.get?, Ne.symm h]
    · split
      · rename_i ha; subst ha; simp [Memory.get?, Ne.symm h]
      · simp [Memory.get?, ih]

/-! ### The canonical form -/

theorem Memory.risesFrom_put (m : Memory) (lo a : Nat) (v : Byte) (hm : Memory.risesFrom lo m) (hlo : lo ≤ a)
    (ha : a < 2 ^ 32) : Memory.risesFrom lo (Memory.put m a v) := by
  induction m generalizing lo with
  | nil => simpa [Memory.put, Memory.risesFrom, hlo] using ha
  | cons c m ih =>
    obtain ⟨a', b⟩ := c
    simp only [Memory.risesFrom, Bool.and_eq_true, decide_eq_true_eq] at hm
    obtain ⟨⟨h1, h2⟩, h3⟩ := hm
    simp only [Memory.put]
    split
    · rename_i hlt
      simpa [Memory.risesFrom, hlo, h3, Nat.succ_le_of_lt hlt] using ⟨ha, h2⟩
    · split
      · rename_i heq; subst heq; simpa [Memory.risesFrom, h1, h3] using h2
      · rename_i hnl hne
        simpa [Memory.risesFrom, h1, ih (a' + 1) h3 (by omega)] using h2

/-- Every store of one byte keeps the canonical form. -/
theorem Memory.wf_put (m : Memory) (a : Nat) (v : Byte) (hm : Memory.wf m) (ha : a < 2 ^ 32) :
    Memory.wf (Memory.put m a v) := Memory.risesFrom_put m 0 a v hm (Nat.zero_le _) ha

/-- A byte address is below 2^32 (R68). -/
theorem State.addr_lt (s : State) (seg : SReg) (off : Nat) : s.addr seg off < 2 ^ 32 := Nat.mod_lt _ (by decide)

/-! ### Byte strings -/

/-- What a successful read returned: as many bytes as asked for, each the one at its address. -/
theorem State.readBytes_ok {s : State} {seg : SReg} {off n : Nat} {bs : List Byte} (h : s.readBytes seg off n = .ok bs) :
    bs.length = n ∧ ∀ k < n, Memory.get? s.mem (s.addr seg (off + k)) = bs[k]? := by
  induction n generalizing off bs with
  | zero => simp only [State.readBytes, Except.ok.injEq] at h; subst h; simp
  | succ n ih =>
    simp only [State.readBytes] at h
    split at h
    · cases h
    · rename_i b hb
      split at h
      · rename_i bs' hr
        cases h
        obtain ⟨hl, hk⟩ := ih hr
        refine ⟨by simp [hl], fun k hkn => ?_⟩
        cases k with
        | zero => simpa using hb
        | succ k =>
          have := hk k (by omega)
          simpa [Nat.add_assoc, Nat.add_comm 1 k] using this
      · cases h

/-- A read whose bytes are all in MEM answers them. -/
theorem State.readBytes_of_get? {s : State} {seg : SReg} {off : Nat} {bs : List Byte}
    (h : ∀ k < bs.length, Memory.get? s.mem (s.addr seg (off + k)) = bs[k]?) : s.readBytes seg off bs.length = .ok bs := by
  induction bs generalizing off with
  | nil => rfl
  | cons b bs ih =>
    have h0 : Memory.get? s.mem (s.addr seg off) = some b := by simpa using h 0 (by simp)
    have hr := ih (off := off + 1) fun k hk => by
      have := h (k + 1) (by simpa using hk)
      simpa [Nat.add_assoc, Nat.add_comm 1 k] using this
    simp [State.readBytes, h0, hr]

/-- A read stops only as stuck, at the first address outside MEM (R61). -/
theorem State.readBytes_error {s : State} {seg : SReg} {off n : Nat} {e : Stop} (h : s.readBytes seg off n = .error e) :
    ∃ k < n, e = .fault (.stuck (s.addr seg (off + k))) ∧ Memory.get? s.mem (s.addr seg (off + k)) = none := by
  induction n generalizing off with
  | zero => simp [State.readBytes] at h
  | succ n ih =>
    simp only [State.readBytes] at h
    split at h
    · rename_i hb; cases h; exact ⟨0, by omega, rfl, by simpa using hb⟩
    · split at h
      · cases h
      · rename_i e' hr
        cases h
        obtain ⟨k, hk, he, hn⟩ := ih hr
        exact ⟨k + 1, by omega, by rw [he]; congr 3; omega, by rw [← hn]; congr 2; omega⟩

/-- What a successful store of bytes did: the domain and the canonical form are kept, bytes elsewhere are unchanged. -/
theorem State.storeBytes_ok {s : State} {seg : SReg} {off : Nat} {bs : List Byte} {m : Memory}
    (h : s.storeBytes seg off bs = .ok m) :
    (Memory.wf s.mem → Memory.wf m) ∧
    (∀ a, (Memory.get? m a).isSome = (Memory.get? s.mem a).isSome) ∧
    (∀ a, (∀ k < bs.length, a ≠ s.addr seg (off + k)) → Memory.get? m a = Memory.get? s.mem a) := by
  induction bs generalizing off m with
  | nil => cases h; exact ⟨id, fun _ => rfl, fun _ _ => rfl⟩
  | cons b bs ih =>
    simp only [State.storeBytes] at h
    split at h
    · cases h
    · rename_i x hx
      split at h
      · rename_i m' hr
        cases h
        obtain ⟨hwf, hdom, hfr⟩ := ih hr
        refine ⟨fun hm => Memory.wf_put _ _ _ (hwf hm) (s.addr_lt ..), fun a => ?_, fun a ha => ?_⟩
        · by_cases hax : a = s.addr seg off
          · subst hax; simp [hx]
          · rw [Memory.get?_put_ne _ _ hax, hdom]
        · rw [Memory.get?_put_ne _ _ (by simpa using ha 0 (by simp))]
          refine hfr a fun k hk => ?_
          have := ha (k + 1) (by simpa using hk)
          simpa [Nat.add_assoc, Nat.add_comm 1 k] using this
      · cases h

/-- Two offsets of one access have different byte addresses, an access being at most 2^32 bytes long (R68). -/
theorem State.addr_ne (s : State) (seg : SReg) {off k j : Nat} (hk : k < 2 ^ 32) (hj : j < 2 ^ 32) (h : k ≠ j) :
    s.addr seg (off + k) ≠ s.addr seg (off + j) := by
  unfold State.addr
  omega

@[simp] theorem leBytes_length (n v : Nat) : (leBytes n v).length = n := by
  induction n generalizing v with
  | zero => rfl
  | succ n ih => simp [leBytes, ih]

/-- The number of the bytes of a number (R54). -/
theorem leValue_leBytes (n v : Nat) : leValue (leBytes n v) = v % 256 ^ n := by
  induction n generalizing v with
  | zero => simp [leBytes, leValue, Nat.mod_one]
  | succ n ih =>
    have h := Nat.mod_mul (x := v) (a := 256) (b := 256 ^ n)
    rw [leBytes, leValue, ih, BitVec.toNat_ofNat, Nat.pow_succ (n := 256), Nat.mul_comm (256 ^ n), h]

/-- The number of n bytes is below 256^n (R54). -/
theorem leValue_lt (bs : List Byte) : leValue bs < 256 ^ bs.length := by
  induction bs with
  | nil => simp [leValue]
  | cons b bs ih => have := b.isLt; simp only [leValue, List.length_cons, Nat.pow_succ]; omega

/-- Byte k of the number of a list of bytes is its k-th byte (R54). -/
theorem leValue_get (bs : List Byte) (k : Nat) (h : k < bs.length) : BitVec.ofNat 8 (leValue bs / 256 ^ k) = bs[k] := by
  induction bs generalizing k with
  | nil => simp at h
  | cons b bs ih =>
    have := b.isLt
    cases k with
    | zero => apply BitVec.eq_of_toNat_eq; simp [leValue]; omega
    | succ k =>
      rw [Nat.pow_succ, Nat.mul_comm, ← Nat.div_div_eq_div_mul, leValue,
        show (b.toNat + 256 * leValue bs) / 256 = leValue bs by omega]
      simpa using ih k (by simpa using h)

theorem leValue_append (xs ys : List Byte) : leValue (xs ++ ys) = leValue xs + 256 ^ xs.length * leValue ys := by
  induction xs with
  | nil => simp [leValue]
  | cons x xs ih => simp only [List.cons_append, leValue, ih, List.length_cons, Nat.pow_succ]; ring

/-! ### The primitives -/

/-- All that a successful MemRead says (R68). -/
theorem State.memRead_ok_iff {s : State} {A : Size} {seg : SReg} {off n v : Nat} :
    s.memRead A seg off n = .ok v ↔ off + n ≤ 2 ^ A.bits ∧ ∃ bs, s.readBytes seg off n = .ok bs ∧ leValue bs = v := by
  unfold State.memRead Size.span
  split
  · simp; omega
  · cases h : s.readBytes seg off n <;> simp; omega

/-- All that a successful MemWrite says (R68). -/
theorem State.memWrite_ok {s t : State} {A : Size} {seg : SReg} {off n v : Nat} (h : s.memWrite A seg off n v = .ok t) :
    off + n ≤ 2 ^ A.bits ∧ ∃ m, s.storeBytes seg off (leBytes n v) = .ok m ∧ t = { s with mem := m } := by
  unfold State.memWrite Size.span at h
  split at h
  · cases h
  · split at h
    · rename_i m hm; cases h; exact ⟨by omega, m, hm, rfl⟩
    · cases h

/-- The bytes stored are the ones read back, one at each address (R68). -/
theorem State.get?_storeBytes {s : State} {seg : SReg} {bs : List Byte} {off : Nat} {m : Memory}
    (hl : bs.length ≤ 2 ^ 32) (h : s.storeBytes seg off bs = .ok m) (k : Nat) (hk : k < bs.length) :
    Memory.get? m (s.addr seg (off + k)) = some bs[k] := by
  induction bs generalizing off m k with
  | nil => simp at hk
  | cons b bs ih =>
    simp only [List.length_cons] at hl hk
    simp only [State.storeBytes] at h
    split at h
    · cases h
    · split at h
      · rename_i m' hr
        cases h
        cases k with
        | zero => simp
        | succ k =>
          rw [Memory.get?_put_ne]
          · have := ih (by omega) hr k (by omega)
            simpa [Nat.add_assoc, Nat.add_comm 1 k] using this
          · simpa using s.addr_ne seg (off := off) (k := k + 1) (j := 0) (by omega) (by omega) (by omega)
      · cases h

/-- A store stops only as stuck, at an address outside MEM (R61). -/
theorem State.storeBytes_error {s : State} {seg : SReg} {off : Nat} {bs : List Byte} {e : Stop}
    (h : s.storeBytes seg off bs = .error e) :
    ∃ k < bs.length, e = .fault (.stuck (s.addr seg (off + k))) ∧ Memory.get? s.mem (s.addr seg (off + k)) = none := by
  induction bs generalizing off with
  | nil => simp [State.storeBytes] at h
  | cons b bs ih =>
    simp only [State.storeBytes] at h
    split at h
    · rename_i hb; cases h; exact ⟨0, by simp, rfl, by simpa using hb⟩
    · split at h
      · cases h
      · rename_i hr
        cases h
        obtain ⟨k, hk, he, hn⟩ := ih hr
        exact ⟨k + 1, by simpa using hk, by rw [he]; congr 3; omega, by rw [← hn]; congr 2; omega⟩

/-- A store that answers had every address in MEM (R61). -/
theorem State.get?_of_storeBytes {s : State} {seg : SReg} {off : Nat} {bs : List Byte} {m : Memory}
    (h : s.storeBytes seg off bs = .ok m) (k : Nat) (hk : k < bs.length) :
    (Memory.get? s.mem (s.addr seg (off + k))).isSome := by
  induction bs generalizing off m k with
  | nil => simp at hk
  | cons b bs ih =>
    simp only [State.storeBytes] at h
    split at h
    · cases h
    · rename_i x hx
      split at h
      · rename_i m' hr
        cases k with
        | zero => simp [hx]
        | succ k =>
          have := ih hr k (by simpa using hk)
          simpa [Nat.add_assoc, Nat.add_comm 1 k] using this
      · cases h

end Sys2Proof.Machine
end

