-- ==== Sys2Proof/Laws/Operands.lean ====
section
/-! SUPPORT. Relative targets: the reduced target of rel16 and rel32 against the unreduced one (R116, R117). -/

namespace Sys2Proof.Machine

/-- Reducing the signed sum gives the same target, so the field's sign does not matter (R117, G12). -/
theorem relTargetOf_toNat (op : Size) (pc : DWord) (L : Nat) (rel : BitVec op.bits) :
    ((relTargetOf op pc L rel).toNat : Int) = relTarget pc L rel % (op.span : Int) := by
  have hs : op.span ≤ 2 ^ 32 := by cases op <;> decide
  have hp : 0 < op.span := Nat.two_pow_pos _
  have hb : (2 ^ op.bits : Nat) = op.span := rfl
  have hm : (pc.toNat + L + rel.toNat) % op.span < 2 ^ 32 := Nat.lt_of_lt_of_le (Nat.mod_lt _ hp) hs
  rw [relTargetOf, BitVec.toNat_ofNat, Nat.mod_eq_of_lt hm, relTarget, BitVec.toInt_eq_toNat_bmod, hb]
  push_cast
  rw [Int.add_emod _ (Int.bmod _ _), Int.bmod_emod, ← Int.add_emod]

/-- Every target of rel16 or rel32 lies inside the offset space of its operand size (R117, G12). -/
theorem relTargetOf_lt (op : Size) (pc : DWord) (L : Nat) (rel : BitVec op.bits) :
    (relTargetOf op pc L rel).toNat < op.span := by
  have hp : 0 < op.span := Nat.two_pow_pos _
  rw [relTargetOf, BitVec.toNat_ofNat]
  exact Nat.lt_of_le_of_lt (Nat.mod_le _ _) (Nat.mod_lt _ hp)

end Sys2Proof.Machine
end

