-- ==== Sys2Proof/Laws/State.lean ====
section
/-! SUPPORT. One lemma per field per update of State, true by unfolding, so that no later proof unfolds a record update. -/

namespace Sys2Proof.Machine

/-! ### setR32 -/

@[simp] theorem State.setR32_pc (s : State) (r : GReg) (v : DWord) : (s.setR32 r v).pc = s.pc := rfl
@[simp] theorem State.setR32_cf (s : State) (r : GReg) (v : DWord) : (s.setR32 r v).cf = s.cf := rfl
@[simp] theorem State.setR32_sregs (s : State) (r : GReg) (v : DWord) : (s.setR32 r v).sregs = s.sregs := rfl
@[simp] theorem State.setR32_gdtr (s : State) (r : GReg) (v : DWord) : (s.setR32 r v).gdtr = s.gdtr := rfl
@[simp] theorem State.setR32_idtr (s : State) (r : GReg) (v : DWord) : (s.setR32 r v).idtr = s.idtr := rfl
@[simp] theorem State.setR32_mem (s : State) (r : GReg) (v : DWord) : (s.setR32 r v).mem = s.mem := rfl
@[simp] theorem State.setR32_launch (s : State) (r : GReg) (v : DWord) : (s.setR32 r v).launch = s.launch := rfl
@[simp] theorem State.setR32_gprs (s : State) (r : GReg) (v : DWord) : (s.setR32 r v).gprs = s.gprs.set r v := rfl

/-! ### setR16 -/

@[simp] theorem State.setR16_pc (s : State) (r : GReg) (v : Word) : (s.setR16 r v).pc = s.pc := rfl
@[simp] theorem State.setR16_cf (s : State) (r : GReg) (v : Word) : (s.setR16 r v).cf = s.cf := rfl
@[simp] theorem State.setR16_sregs (s : State) (r : GReg) (v : Word) : (s.setR16 r v).sregs = s.sregs := rfl
@[simp] theorem State.setR16_gdtr (s : State) (r : GReg) (v : Word) : (s.setR16 r v).gdtr = s.gdtr := rfl
@[simp] theorem State.setR16_idtr (s : State) (r : GReg) (v : Word) : (s.setR16 r v).idtr = s.idtr := rfl
@[simp] theorem State.setR16_mem (s : State) (r : GReg) (v : Word) : (s.setR16 r v).mem = s.mem := rfl
@[simp] theorem State.setR16_launch (s : State) (r : GReg) (v : Word) : (s.setR16 r v).launch = s.launch := rfl

/-! ### setR8 -/

@[simp] theorem State.setR8_pc (s : State) (r : GReg) (v : Byte) : (s.setR8 r v).pc = s.pc := rfl
@[simp] theorem State.setR8_cf (s : State) (r : GReg) (v : Byte) : (s.setR8 r v).cf = s.cf := rfl
@[simp] theorem State.setR8_sregs (s : State) (r : GReg) (v : Byte) : (s.setR8 r v).sregs = s.sregs := rfl
@[simp] theorem State.setR8_gdtr (s : State) (r : GReg) (v : Byte) : (s.setR8 r v).gdtr = s.gdtr := rfl
@[simp] theorem State.setR8_idtr (s : State) (r : GReg) (v : Byte) : (s.setR8 r v).idtr = s.idtr := rfl
@[simp] theorem State.setR8_mem (s : State) (r : GReg) (v : Byte) : (s.setR8 r v).mem = s.mem := rfl
@[simp] theorem State.setR8_launch (s : State) (r : GReg) (v : Byte) : (s.setR8 r v).launch = s.launch := rfl

/-! ### setSreg -/

@[simp] theorem State.setSreg_gprs (s : State) (r : SReg) (v : Word) : (s.setSreg r v).gprs = s.gprs := by cases r <;> rfl
@[simp] theorem State.setSreg_pc (s : State) (r : SReg) (v : Word) : (s.setSreg r v).pc = s.pc := by cases r <;> rfl
@[simp] theorem State.setSreg_cf (s : State) (r : SReg) (v : Word) : (s.setSreg r v).cf = s.cf := by cases r <;> rfl
@[simp] theorem State.setSreg_gdtr (s : State) (r : SReg) (v : Word) : (s.setSreg r v).gdtr = s.gdtr := by cases r <;> rfl
@[simp] theorem State.setSreg_idtr (s : State) (r : SReg) (v : Word) : (s.setSreg r v).idtr = s.idtr := by cases r <;> rfl
@[simp] theorem State.setSreg_mem (s : State) (r : SReg) (v : Word) : (s.setSreg r v).mem = s.mem := by cases r <;> rfl
@[simp] theorem State.setSreg_launch (s : State) (r : SReg) (v : Word) : (s.setSreg r v).launch = s.launch := by cases r <;> rfl

/-! ### complementCarry -/

@[simp] theorem State.complementCarry_gprs (s : State) : (s.complementCarry).gprs = s.gprs := rfl
@[simp] theorem State.complementCarry_pc (s : State) : (s.complementCarry).pc = s.pc := rfl
@[simp] theorem State.complementCarry_sregs (s : State) : (s.complementCarry).sregs = s.sregs := rfl
@[simp] theorem State.complementCarry_gdtr (s : State) : (s.complementCarry).gdtr = s.gdtr := rfl
@[simp] theorem State.complementCarry_idtr (s : State) : (s.complementCarry).idtr = s.idtr := rfl
@[simp] theorem State.complementCarry_mem (s : State) : (s.complementCarry).mem = s.mem := rfl
@[simp] theorem State.complementCarry_launch (s : State) : (s.complementCarry).launch = s.launch := rfl
@[simp] theorem State.complementCarry_cf (s : State) : s.complementCarry.cf = !s.cf := rfl

/-! ### advance -/

@[simp] theorem State.advance_gprs (s : State) (L : Nat) : (s.advance L).gprs = s.gprs := rfl
@[simp] theorem State.advance_cf (s : State) (L : Nat) : (s.advance L).cf = s.cf := rfl
@[simp] theorem State.advance_sregs (s : State) (L : Nat) : (s.advance L).sregs = s.sregs := rfl
@[simp] theorem State.advance_gdtr (s : State) (L : Nat) : (s.advance L).gdtr = s.gdtr := rfl
@[simp] theorem State.advance_idtr (s : State) (L : Nat) : (s.advance L).idtr = s.idtr := rfl
@[simp] theorem State.advance_mem (s : State) (L : Nat) : (s.advance L).mem = s.mem := rfl
@[simp] theorem State.advance_launch (s : State) (L : Nat) : (s.advance L).launch = s.launch := rfl
@[simp] theorem State.advance_pc (s : State) (L : Nat) : (s.advance L).pc = s.pc + BitVec.ofNat 32 L := rfl

/-! ### Views of the state that an update leaves alone -/

@[simp] theorem State.r32_complementCarry (s : State) (r : GReg) : s.complementCarry.r32 r = s.r32 r := rfl
@[simp] theorem State.r32_advance (s : State) (L : Nat) (r : GReg) : (s.advance L).r32 r = s.r32 r := rfl
@[simp] theorem State.sreg_complementCarry (s : State) (r : SReg) : s.complementCarry.sreg r = s.sreg r := by cases r <;> rfl
@[simp] theorem State.sreg_advance (s : State) (L : Nat) (r : SReg) : (s.advance L).sreg r = s.sreg r := by cases r <;> rfl
@[simp] theorem State.addr_complementCarry (s : State) (seg : SReg) (off : Nat) : s.complementCarry.addr seg off = s.addr seg off := rfl
@[simp] theorem State.addr_advance (s : State) (L : Nat) (seg : SReg) (off : Nat) : (s.advance L).addr seg off = s.addr seg off := rfl
@[simp] theorem State.codeSpan_complementCarry (s : State) : s.complementCarry.codeSpan = s.codeSpan := rfl
@[simp] theorem State.codeSpan_advance (s : State) (L : Nat) : (s.advance L).codeSpan = s.codeSpan := rfl

end Sys2Proof.Machine
end

