-- ==== Sys2Proof/Laws/Registers.lean ====
section
/-! SUPPORT. Reading a register after writing one, in the three widths (R20 to R23), and the segment registers (R28). -/

namespace Sys2Proof.Machine

@[simp] theorem Gprs.get_set_same (g : Gprs) (r : GReg) (v : DWord) : (g.set r v).get r = v := by
  cases r <;> rfl

theorem Gprs.get_set_ne (g : Gprs) {r q : GReg} (v : DWord) (h : q ≠ r) : (g.set r v).get q = g.get q := by
  cases r <;> cases q <;> first | rfl | exact absurd rfl h

@[simp] theorem State.r32_setR32_same (s : State) (r : GReg) (v : DWord) : (s.setR32 r v).r32 r = v :=
  Gprs.get_set_same s.gprs r v

theorem State.r32_setR32_ne (s : State) {r q : GReg} (v : DWord) (h : q ≠ r) : (s.setR32 r v).r32 q = s.r32 q :=
  Gprs.get_set_ne s.gprs v h

/-- A word write replaces bits 15:0 of its own cell. -/
theorem State.r32_setR16_same (s : State) (r : GReg) (v : Word) :
    (s.setR16 r v).r32 r = (s.r32 r).extractLsb' 16 16 ++ v := State.r32_setR32_same ..

theorem State.r32_setR16_ne (s : State) {r q : GReg} (v : Word) (h : q ≠ r) : (s.setR16 r v).r32 q = s.r32 q :=
  State.r32_setR32_ne s _ h

/-- A byte write changes no cell but the one its register lies in. -/
theorem State.r32_setR8_ne (s : State) {r q : GReg} (v : Byte) (h : q ≠ GReg.byteCell r) : (s.setR8 r v).r32 q = s.r32 q :=
  State.r32_setR32_ne s _ h

/-- The cell of a byte register after a write to it, by bits. -/
theorem State.r32_setR8_getLsbD (s : State) (r : GReg) (v : Byte) (i : Nat) (hi : i < 32) :
    ((s.setR8 r v).r32 (GReg.byteCell r)).getLsbD i =
      (if GReg.byteHigh r then
        (if 8 ≤ i ∧ i < 16 then v.getLsbD (i - 8) else (s.r32 (GReg.byteCell r)).getLsbD i)
      else
        (if i < 8 then v.getLsbD i else (s.r32 (GReg.byteCell r)).getLsbD i)) := by
  rw [State.setR8, State.r32_setR32_same]
  cases GReg.byteHigh r
  · simp only [Bool.false_eq_true, if_false]
    rw [BitVec.getLsbD_append]
    split
    · rfl
    · rename_i h
      rw [BitVec.getLsbD_extractLsb', show 8 + (i - 8) = i by omega]
      simp [show i - 8 < 24 by omega]
  · simp only [if_true]
    rw [BitVec.getLsbD_append]
    by_cases h8 : i < 8
    · simp [h8, show ¬ 8 ≤ i by omega]
    · rw [if_neg h8, BitVec.getLsbD_append]
      by_cases h16 : i < 16
      · simp [show i - 8 < 8 by omega, show 8 ≤ i by omega, h16]
      · rw [if_neg (by omega), if_neg (by omega), BitVec.getLsbD_extractLsb', show 16 + (i - 8 - 8) = i by omega]
        simp [show i - 8 - 8 < 16 by omega]

@[simp] theorem State.sreg_setSreg_same (s : State) (r : SReg) (v : Word) : (s.setSreg r v).sreg r = v := by
  cases r <;> rfl

theorem State.sreg_setSreg_ne (s : State) {r q : SReg} (v : Word) (h : q ≠ r) : (s.setSreg r v).sreg q = s.sreg q := by
  cases r <;> cases q <;> first | rfl | exact absurd rfl h

@[simp] theorem SReg.ofCode_code (r : SReg) : SReg.ofCode r.code = some r := by cases r <;> rfl

/-! ### Byte registers by bits -/

/-- Bit i of a byte register is bit i or i + 8 of its cell (R22, R23). -/
theorem State.r8_getLsbD (s : State) (q : GReg) (i : Nat) (hi : i < 8) :
    (s.r8 q).getLsbD i = (s.r32 (GReg.byteCell q)).getLsbD ((if GReg.byteHigh q then 8 else 0) + i) := by
  unfold State.r8
  split <;> simp [hi]

/-- Two byte registers in the same half of one cell are the same register. -/
theorem GReg.byte_inj {r q : GReg} (hc : GReg.byteCell q = GReg.byteCell r) (hh : GReg.byteHigh q = GReg.byteHigh r) : q = r := by
  revert hc hh
  cases r <;> cases q <;> simp [GReg.byteCell, GReg.byteHigh]

end Sys2Proof.Machine
end

