-- ==== Sys2Proof/Laws/Step.lean ====
section
/-! SUPPORT. What a fetch, an instruction and a step can do (R66, R207, R248): one inversion lemma each. -/

namespace Sys2Proof.Machine

/-! ### Fetch -/

theorem State.fetchByte_ok_iff {s : State} {off : Nat} {b : Byte} :
    s.fetchByte off = .ok b ↔ off < s.codeSpan ∧ Memory.get? s.mem (s.addr .cs off) = some b := by
  unfold State.fetchByte
  split
  · simp; omega
  · split <;> rename_i h1 h2
    · simp [h2]
    · simp [h2, show off < s.codeSpan by omega]

/-- A fetch is the one-byte read of R9, `MemRead(CS, off, 1)`, in the offset space of code. -/
theorem State.fetchByte_eq_memRead (s : State) (off : Nat) :
    s.memRead s.launch.defaultOperandSize .cs off 1 = (s.fetchByte off).map BitVec.toNat := by
  unfold State.memRead State.fetchByte State.codeSpan
  split
  · rfl
  · simp only [State.readBytes]
    cases Memory.get? s.mem (s.addr .cs off) <;> simp [Except.map, leValue]

/-- Bytes that lie in the offset space and in MEM come first in a fetch. -/
theorem State.fetchRun_of_get? {s : State} {n : Nat} {bs : List Byte} {off : Nat} (hn : bs.length ≤ n)
    (hspan : off + bs.length ≤ s.codeSpan)
    (h : ∀ k b, bs[k]? = some b → Memory.get? s.mem (s.addr .cs (off + k)) = some b) :
    ∃ rest, (s.fetchRun off n).1 = bs ++ rest := by
  induction bs generalizing off n with
  | nil => exact ⟨_, rfl⟩
  | cons b bs ih =>
    cases n with
    | zero => simp at hn
    | succ n =>
      simp only [List.length_cons] at hn hspan
      have hb : s.fetchByte off = .ok b := State.fetchByte_ok_iff.mpr ⟨by omega, by simpa using h 0 b rfl⟩
      obtain ⟨rest, hr⟩ := ih (n := n) (off := off + 1) (by omega) (by omega) fun k c hc => by
        have := h (k + 1) c (by simpa using hc)
        simpa [Nat.add_assoc, Nat.add_comm 1 k] using this
      exact ⟨rest, by simp [State.fetchRun, hb, hr]⟩

/-- Every byte a fetch returns lies in the offset space and in MEM. -/
theorem State.get?_of_fetchRun {s : State} {n off k : Nat} {b : Byte} (h : (s.fetchRun off n).1[k]? = some b) :
    off + k < s.codeSpan ∧ Memory.get? s.mem (s.addr .cs (off + k)) = some b := by
  induction n generalizing off k with
  | zero => simp [State.fetchRun] at h
  | succ n ih =>
    simp only [State.fetchRun] at h
    split at h
    · simp at h
    · rename_i c hc
      cases k with
      | zero =>
        simp only [List.getElem?_cons_zero, Option.some.injEq] at h
        subst h
        exact State.fetchByte_ok_iff.mp hc
      | succ k =>
        have := ih (off := off + 1) (by simpa using h)
        simpa [Nat.add_assoc, Nat.add_comm 1 k] using this

/-- A fetch is never longer than its window. -/
theorem State.fetchRun_length (s : State) (off n : Nat) : (s.fetchRun off n).1.length ≤ n := by
  induction n generalizing off with
  | zero => simp [State.fetchRun]
  | succ n ih =>
    simp only [State.fetchRun]
    split
    · simp
    · simpa using ih (off + 1)

/-- What stops a fetch is the offset space or an address outside MEM, never an exception. -/
theorem State.fetchRun_stop {s : State} {n off : Nat} {e : Stop} (h : (s.fetchRun off n).2 = some e) :
    e = .refuse .pastOffsetSpace ∨ ∃ a, e = .fault (.stuck a) ∧ Memory.get? s.mem a = none := by
  induction n generalizing off with
  | zero => simp [State.fetchRun] at h
  | succ n ih =>
    simp only [State.fetchRun] at h
    split at h
    · rename_i e' he
      cases h
      unfold State.fetchByte at he
      split at he
      · cases he; exact .inl rfl
      · split at he
        · rename_i hg; cases he; exact .inr ⟨_, rfl, hg⟩
        · cases he
    · exact ih h

/-! ### Instructions -/

/-- Before F5 a prefix is refused as without effect (R151). -/
theorem prefixRefusal_cmc (p : PrefixByte) : prefixRefusal p (.one 0xF5) = .prefixWithoutEffect p := by
  rw [prefixRefusal, lookupKey_opcodeMap, if_pos rfl]

/-- Before any other opcode the opcode is what is refused (R134). -/
theorem prefixRefusal_other (p : PrefixByte) {op : OpcodeKey} (h : op ≠ .one 0xF5) :
    prefixRefusal p op = .undecodable (.opcodeNotInMap op) := by
  rw [prefixRefusal, lookupKey_opcodeMap, if_neg h]

/-- What an instruction can do: CMC complements the carry flag and advances; every prefixed instruction is refused (R150, R151). -/
theorem exec_cases (i : Instr) (s : State) :
    (i = .cmc ∧ exec i s = .next (s.complementCarry.advance 1)) ∨
    ∃ p more, i.prefixes = p :: more ∧ exec i s = .refused (prefixRefusal p i.key) := by
  cases i <;> first | exact .inl ⟨rfl, rfl⟩ | exact .inr ⟨_, _, rfl, rfl⟩

theorem exec_next {i : Instr} {s t : State} (h : exec i s = .next t) : i = .cmc ∧ t = s.complementCarry.advance 1 := by
  rcases exec_cases i s with ⟨hi, he⟩ | ⟨p, more, _, he⟩ <;> rw [he] at h <;> cases h
  exact ⟨hi, rfl⟩

theorem exec_ne_fault (i : Instr) (s : State) (f : Fault) : exec i s ≠ .fault f := by
  rcases exec_cases i s with ⟨_, he⟩ | ⟨p, more, _, he⟩ <;> rw [he] <;> intro h <;> cases h

/-! ### Steps -/

/-- What a step can do (R248): end the run, stop because the bytes do not decode, be refused by one of the two bounds, or run
the instruction its bytes decode to. -/
theorem step_cases (s : State) :
    (s.pc = s.launch.codeEnd ∧ step s = .fault .runEnded) ∨
    (s.pc ≠ s.launch.codeEnd ∧
      ((∃ e, decode s.fetchWindow.1 = .error e ∧ step s = (decodeStop e s.fetchWindow.2).outcome) ∨
       (∃ i n, decode s.fetchWindow.1 = .ok (i, n) ∧
        ((s.codeSpan - 1 < s.pc.toNat + n ∧ step s = .refused .endOfOffsetSpace) ∨
         (s.pc.toNat + n ≤ s.codeSpan - 1 ∧ s.pc.toNat < s.launch.codeEnd.toNat ∧
            s.launch.codeEnd.toNat < s.pc.toNat + n ∧ step s = .refused .straddlesCodeEnd) ∨
         (s.pc.toNat + n ≤ s.codeSpan - 1 ∧
            ¬ (s.pc.toNat < s.launch.codeEnd.toNat ∧ s.launch.codeEnd.toNat < s.pc.toNat + n) ∧ step s = exec i s))))) := by
  by_cases hpc : s.pc = s.launch.codeEnd
  · exact .inl ⟨hpc, if_pos hpc⟩
  · refine .inr ⟨hpc, ?_⟩
    have hstep : step s = match decode s.fetchWindow.1 with
        | .error e   => (decodeStop e s.fetchWindow.2).outcome
        | .ok (i, n) => runDecoded i n s := if_neg hpc
    cases hd : decode s.fetchWindow.1 with
    | error e => rw [hd] at hstep; exact .inl ⟨e, rfl, hstep⟩
    | ok x =>
      obtain ⟨i, n⟩ := x
      rw [hd] at hstep
      refine .inr ⟨i, n, rfl, ?_⟩
      replace hstep : step s = runDecoded i n s := hstep
      unfold runDecoded at hstep
      rw [hstep]
      by_cases h1 : s.codeSpan - 1 < s.pc.toNat + n
      · exact .inl ⟨h1, if_pos h1⟩
      · refine .inr ?_
        rw [if_neg h1]
        by_cases h2 : s.pc.toNat < s.launch.codeEnd.toNat ∧ s.launch.codeEnd.toNat < s.pc.toNat + n
        · exact .inl ⟨by omega, h2.1, h2.2, if_pos h2⟩
        · exact .inr ⟨by omega, h2, if_neg h2⟩

/-- No stop of an undecodable instruction is a next state. -/
theorem Stop.outcome_ne_next (e : Stop) (t : State) : e.outcome ≠ .next t := by
  cases e <;> intro h <;> cases h

/-- Inversion of a step that answers a next state: the bytes decode to CMC. -/
theorem step_next {s t : State} (h : step s = .next t) :
    s.pc ≠ s.launch.codeEnd ∧ ∃ n, decode s.fetchWindow.1 = .ok (.cmc, n) ∧ s.pc.toNat + n ≤ s.codeSpan - 1 ∧
      t = s.complementCarry.advance 1 := by
  rcases step_cases s with ⟨_, he⟩ | ⟨hpc, ⟨e, _, he⟩ | ⟨i, n, hd, ⟨_, he⟩ | ⟨_, _, _, he⟩ | ⟨hn, _, he⟩⟩⟩
  · rw [h] at he; cases he
  · exact absurd (he.symm.trans h) (Stop.outcome_ne_next _ _)
  · rw [h] at he; cases he
  · rw [h] at he; cases he
  · obtain ⟨rfl, ht⟩ := exec_next (he.symm.trans h)
    exact ⟨hpc, n, hd, hn, ht⟩

/-- A one-byte instruction is F5, and conversely (R150, R248). -/
theorem decode_cmc {bytes : List Byte} {n : Nat} (h : decode bytes = .ok (.cmc, n)) :
    n = 1 ∧ bytes.head? = some 0xF5 := by
  unfold decode at h
  split at h
  · cases h
  · rename_i ps left hs
    split at h
    · cases h
    · rename_i op rest hk
      split at h
      · rename_i p more
        simp only [Except.ok.injEq, Prod.mk.injEq] at h
        have := congrArg Instr.prefixes h.1
        rw [instrOfFirst_prefixes] at this
        cases this
      · rw [lookupKey_opcodeMap] at h
        split at h
        · cases h
        · rename_i i hi
          split at hi
          · rename_i hop
            subst hop
            cases h
            obtain ⟨hb, -, -, -⟩ := scanPrefixes_ok hs
            obtain ⟨hl, -⟩ := readKey_ok hk
            rw [hb, hl]
            exact ⟨rfl, rfl⟩
          · cases hi

/-- The two spellings of F3H run alike (R84, conflict C12). -/
theorem exec_spelling (i : Instr) (s : State) : exec i.spelling s = exec i s := by cases i <;> rfl

/-- The arm of an instruction's first prefix refuses it. -/
theorem exec_instrOfFirst (p : PrefixByte) (more : List PrefixByte) (op : OpcodeKey) (s : State) :
    exec (instrOfFirst p more op) s = .refused (prefixRefusal p op) := by
  cases p with
  | seg r => cases r <;> rfl
  | _ => rfl

/-- The stop of undecodable bytes is a refusal, or what stopped the fetch: never the end of the run, never an exception. -/
theorem decodeStop_outcome (s : State) (e : DecodeError) :
    (∃ r, (decodeStop e s.fetchWindow.2).outcome = .refused r) ∨
    ∃ a, (decodeStop e s.fetchWindow.2).outcome = .fault (.stuck a) := by
  cases e with
  | truncated =>
    cases hf : s.fetchWindow.2 with
    | none => exact .inl ⟨_, rfl⟩
    | some x =>
      rcases State.fetchRun_stop hf with rfl | ⟨a, rfl, _⟩
      · exact .inl ⟨_, rfl⟩
      · exact .inr ⟨a, rfl⟩
  | _ => exact .inl ⟨_, rfl⟩

theorem State.codeSpan_pos (s : State) : 0 < s.codeSpan := by
  unfold State.codeSpan Size.span; exact Nat.two_pow_pos _

end Sys2Proof.Machine
end

