-- ==== Sys2Proof/Tests/Slice0.lean ====
section
/-! SUPPORT. The model's own tests. Expected results come from spec/95_test_vectors.md (its vector ids in the comments), from the
tables of 30_encoding.md, or from hand calculation with the rule named; after them the witnesses: for each statement with
hypotheses, a concrete state and operands that meet all of them. -/

namespace Sys2Proof.Tests

open Sys2Proof Sys2Proof.Machine

/-! ## Helpers -/

/-- A launch state: code at `cs + pc`, sizes, CODE_END. -/
def launchAt (pc : DWord) (op ad : Size) (cs : DWord) (codeEnd : DWord) (mem : Memory) : State :=
  { State.reset with
    pc := pc, mem := mem
    launch := { mode := .protectedMode, defaultOperandSize := op, defaultAddressSize := ad,
                segBase := { es := 0, cs := cs, ss := 0x20000, ds := 0x10000, fs := 0, gs := 0 }, codeEnd := codeEnd } }

/-- Part 3's common launch state with these bytes at 1000H, CODE_END and CF as given. -/
def program (c : Bool) (codeEnd : DWord) (bytes : List Byte) : State :=
  { launchAt 0x1000 .s32 .s32 0 codeEnd (bytes.mapIdx fun k b => (0x1000 + k, b)) with cf := c }

def nextOf : Host.Outcome State Fault Refusal → Option State
  | .next t => some t
  | _       => none

def refusalOf : Host.Outcome State Fault Refusal → Option Refusal
  | .refused r => some r
  | _          => none

def faultOf : Host.Outcome State Fault Refusal → Option Fault
  | .fault r => some r
  | _        => none

/-- pc and CF after one step. -/
def after (s : State) : Option (DWord × Bool) := (nextOf (step s)).map fun t => (t.pc, t.cf)

def memAfter : Except Stop State → Option Memory
  | .ok t    => some t.mem
  | .error _ => none

/-- A Bool that says the bytes lie at pc. -/
def bytesAt (s : State) (bytes : List Byte) : Bool :=
  (List.range bytes.length).all fun k => Memory.get? s.mem (s.addr .cs (s.pc.toNat + k)) == bytes[k]?

theorem hasBytes {s : State} {bytes : List Byte} (h : bytesAt s bytes = true) : s.HasBytesAtPc bytes := by
  intro k b hk
  have hl : k < bytes.length := (List.getElem?_eq_some_iff.mp hk).1
  have := List.all_eq_true.mp h k (List.mem_range.mpr hl)
  simpa [hk] using this

/-! ## WellFormed: each check refuses an ill-formed term -/

/-- R87: one prefix of a group; REP and LOCK are one group. -/
theorem test_wf_repeated_group :
    Instr.wf (.rep [.lock] (.one 0xF5)) = false ∧ Instr.wf (.opSizeOverride [.opSize] (.one 0xF5)) = false ∧
    Instr.wf (.csOverride [.seg .ds] (.one 0xF5)) = false ∧ Instr.wf (.rep [.opSize, .adSize, .seg .cs] (.one 0xF5)) = true := by
  decide

/-- R90, R133: a one-byte key is no prefix value and no escape. -/
theorem test_wf_key :
    Instr.wf (.rep [] (.one 0x66)) = false ∧ Instr.wf (.rep [] (.one 0x0F)) = false ∧ Instr.wf (.rep [] (.esc 0x66)) = true := by
  decide

/-- R96: [BP] has no form without a displacement; the 16-bit forms go with 16-bit addressing. -/
theorem test_wf_16 :
    RmForm.wf .s16 (.base16 .bp .none) = false ∧ RmForm.wf .s16 (.base16 .bp (.d8 0)) = true ∧
    RmForm.wf .s32 (.base16 .bx .none) = false ∧ RmForm.wf .s32 (.disp16 0) = false := by decide

/-- R99: [ESP] without SIB and [EBP] without a displacement have no form; the 32-bit forms go with 32-bit addressing. -/
theorem test_wf_32 :
    RmForm.wf .s32 (.base32 .esp .none) = false ∧ RmForm.wf .s32 (.base32 .ebp .none) = false ∧
    RmForm.wf .s16 (.base32 .eax .none) = false ∧ RmForm.wf .s16 (.disp32 0) = false := by decide

/-- R102, R103: ESP is no index; base EBP without a displacement is disp32 alone. -/
theorem test_wf_sib :
    RmForm.wf .s32 (.sib .x1 (some .esp) .eax .none) = false ∧ RmForm.wf .s32 (.sib .x1 none .ebp .none) = false ∧
    RmForm.wf .s16 (.sib .x1 none .eax .none) = false ∧ RmForm.wf .s32 (.sibDisp32 .x1 (some .esp) 0) = false ∧
    RmForm.wf .s16 (.sibDisp32 .x1 none 0) = false ∧ AddrSpec.wf .s32 ⟨7, .sib .x8 none .esp .none⟩ = true := by decide

/-! ## Decoding the words of the table, written out from its encodings -/

/-- The bits of each row of spec/opcode_table.json (R84, R85, R86, R150), before the opcode F5. -/
theorem test_rows_decode :
    decode [0b11110101] = .ok (.cmc, 1) ∧
    decode [0b11110011, 0xF5] = .ok (.rep [] (.one 0xF5), 2) ∧
    decode [0b11110010, 0xF5] = .ok (.repneRepnz [] (.one 0xF5), 2) ∧
    decode [0b11110000, 0xF5] = .ok (.lock [] (.one 0xF5), 2) ∧
    decode [0b00101110, 0xF5] = .ok (.csOverride [] (.one 0xF5), 2) ∧
    decode [0b00110110, 0xF5] = .ok (.ssOverride [] (.one 0xF5), 2) ∧
    decode [0b00111110, 0xF5] = .ok (.dsOverride [] (.one 0xF5), 2) ∧
    decode [0b00100110, 0xF5] = .ok (.esOverride [] (.one 0xF5), 2) ∧
    decode [0b01100100, 0xF5] = .ok (.fsOverride [] (.one 0xF5), 2) ∧
    decode [0b01100101, 0xF5] = .ok (.gsOverride [] (.one 0xF5), 2) ∧
    decode [0b01100110, 0xF5] = .ok (.opSizeOverride [] (.one 0xF5), 2) ∧
    decode [0b01100111, 0xF5] = .ok (.adSizeOverride [] (.one 0xF5), 2) := by
  refine ⟨rfl, rfl, rfl, rfl, rfl, rfl, rfl, rfl, rfl, rfl, rfl, rfl⟩

/-- REPE/REPZ is the same byte as REP (R84, conflict C12). -/
theorem test_repe_same_byte : encode (.repeRepz [] (.one 0xF5)) = [0xF3, 0xF5] ∧ encode (.rep [] (.one 0xF5)) = [0xF3, 0xF5] := by
  decide

/-- VP7 to VP10: repeated groups refused, four prefixes in another order accepted by the scan; VP11 to VP14, VP17: outside the map. -/
theorem test_decode_refusals :
    decode [0x66, 0x66, 0xF5] = .error (.repeatedGroup .opSize) ∧
    decode [0x2E, 0x3E, 0xF5] = .error (.repeatedGroup (.seg .ds)) ∧
    decode [0xF3, 0xF0, 0xF5] = .error (.repeatedGroup .lock) ∧
    decode [0x66, 0x67, 0x2E, 0xF3, 0xF5] = .ok (.opSizeOverride [.adSize, .seg .cs, .rep] (.one 0xF5), 5) ∧
    decode [0x90] = .error (.opcodeNotInMap (.one 0x90)) ∧ decode [0x0F, 0x00] = .error (.opcodeNotInMap (.esc 0x00)) ∧
    decode [0x00] = .error (.opcodeNotInMap (.one 0x00)) ∧ decode [0xFF] = .error (.opcodeNotInMap (.one 0xFF)) ∧
    decode [0xF4] = .error (.opcodeNotInMap (.one 0xF4)) ∧ decode [0xF6] = .error (.opcodeNotInMap (.one 0xF6)) ∧
    decode [] = .error .truncated ∧ decode [0x2E] = .error .truncated ∧ decode [0x0F] = .error (.opcodeNotInMap (.one 0x0F)) := by
  refine ⟨rfl, rfl, rfl, rfl, rfl, rfl, rfl, rfl, rfl, rfl, rfl, rfl, rfl⟩

/-- VP1 to VP6, VP10, VP15: the decoder of R133 at the default map refuses each, for the prefix or for the opcode. -/
theorem test_r133_refusals :
    ([[0x2E, 0xF5], [0x66, 0xF5], [0x67, 0xF5], [0xF0, 0xF5], [0xF3, 0xF5], [0xF2, 0xF5], [0x66, 0x67, 0x2E, 0xF3, 0xF5],
      [0x66, 0x90]].map fun b => match decodeWith opcodeMap .s32 .s32 b with
        | .error e => some e
        | .ok _    => none) =
    [some (.prefixNotAdmitted (.seg .cs)), some (.prefixNotAdmitted .opSize), some (.prefixNotAdmitted .adSize),
     some (.prefixNotAdmitted .lock), some (.prefixNotAdmitted .rep), some (.prefixNotAdmitted .repne),
     some (.prefixNotAdmitted .opSize), some (.opcodeNotInMap (.one 0x90))] := by decide

/-- VA1 to VA8. -/
theorem test_attributes :
    [operandSizeOf .s16 [], operandSizeOf .s16 [.opSize], operandSizeOf .s16 [.adSize], operandSizeOf .s16 [.opSize, .adSize],
     operandSizeOf .s32 [], operandSizeOf .s32 [.opSize], operandSizeOf .s32 [.adSize, .opSize], operandSizeOf .s32 [.adSize]] =
      [.s16, .s32, .s16, .s32, .s32, .s16, .s16, .s32] ∧
    [addressSizeOf .s16 [], addressSizeOf .s16 [.opSize], addressSizeOf .s16 [.adSize], addressSizeOf .s16 [.opSize, .adSize],
     addressSizeOf .s32 [], addressSizeOf .s32 [.opSize], addressSizeOf .s32 [.adSize, .opSize], addressSizeOf .s16 [.adSize]] =
      [.s16, .s16, .s32, .s32, .s32, .s32, .s16, .s32] := by decide

/-! ## The decoder of R133 over a hypothetical opcode map (section 2.7 of the vectors, R7, R133) -/

/-- One form with a ModR/M byte and an `id` immediate, as section 2.7 supposes; a /digit family; a form with a memory-only
operand and a segment register operand. -/
def hypotheticalMap : OpcodeMap :=
  [(.esc 0xAA, .form { rule := 0, rm := some .rm32, reg := some .r32, last := .id, admitsSeg := true, admitsOp := true,
                       admitsAd := true }),
   (.one 0xAB, .digits [(2, { rule := 0, rm := some .m16and32, reg := none, last := .none, admitsSeg := true,
                              admitsOp := false, admitsAd := true })]),
   (.one 0xAC, .form { rule := 0, rm := some .rm16, reg := some .sreg, last := .none, admitsSeg := true, admitsOp := false,
                       admitsAd := true })]

/-- What R133 answers there: the length, or the refusal. -/
def lengthOrRefusal (bytes : List Byte) : Except DecodeError Nat :=
  match decodeWith hypotheticalMap .s16 .s16 bytes with
  | .error e => .error e
  | .ok d    => .ok d.length

/-- Section 2.7: sixteen bytes are refused, the same without one prefix is fifteen and accepted. -/
theorem test_length_limit :
    lengthOrRefusal [0xF3, 0x67, 0x66, 0x2E, 0x0F, 0xAA, 0x84, 0x00, 1, 2, 3, 4, 5, 6, 7, 8] = .error .tooLong ∧
    lengthOrRefusal [0x67, 0x66, 0x2E, 0x0F, 0xAA, 0x84, 0x00, 1, 2, 3, 4, 5, 6, 7, 8] = .ok 15 := ⟨rfl, rfl⟩

/-- D14: a /digit value with no member, mod = 11 for a memory-only operand, Sreg codes 6 and 7 are refused; the assigned ones are
not. -/
theorem test_reserved_encodings :
    lengthOrRefusal [0xAB, 0x1E, 0, 0] = .error (.noDigitMember (.one 0xAB) 3) ∧
    lengthOrRefusal [0xAB, 0xD0] = .error (.registerForm .m16and32) ∧ lengthOrRefusal [0xAB, 0x16, 0, 0] = .ok 4 ∧
    lengthOrRefusal [0xAC, 0xF0] = .error (.unassignedSReg 6) ∧ lengthOrRefusal [0xAC, 0xF8] = .error (.unassignedSReg 7) ∧
    lengthOrRefusal [0xAC, 0xE8] = .ok 2 ∧ lengthOrRefusal [0x66, 0xAC, 0xE8] = .error (.prefixNotAdmitted .opSize) :=
  ⟨rfl, rfl, rfl, rfl, rfl, rfl, rfl⟩

/-! ## CMC, one step (section 2.1; P4 to P8) -/

/-- VC1 and VC2. -/
theorem test_cmc_complements :
    after (launchAt 0x100 .s16 .s16 0 0x1000 [(0x100, 0xF5)]) = some (0x101, true) ∧
    after { launchAt 0x100 .s16 .s16 0 0x1000 [(0x100, 0xF5)] with cf := true } = some (0x101, false) := by decide

/-- VC3, VC4, VC7, VC8: pc near the edges of the two sizes. -/
theorem test_cmc_edges :
    after (launchAt 0x7FFFFFFF .s32 .s32 0 0 [(0x7FFFFFFF, 0xF5)]) = some (0x80000000, true) ∧
    after (launchAt 0xFFFFFFFE .s32 .s32 0 0 [(0xFFFFFFFE, 0xF5)]) = some (0xFFFFFFFF, true) ∧
    after { launchAt 0xFFFF .s32 .s32 0 0 [(0xFFFF, 0xF5)] with cf := true } = some (0x10000, false) ∧
    after { launchAt 0 .s32 .s16 0 9 [(0, 0xF5)] with cf := true } = some (1, false) := by decide

/-- VC5 and VC6: refused at the end of the offset space. -/
theorem test_end_of_offset_space :
    refusalOf (step (launchAt 0xFFFFFFFF .s32 .s32 0 0 [(0xFFFFFFFF, 0xF5)])) = some .endOfOffsetSpace ∧
    refusalOf (step (launchAt 0xFFFF .s16 .s16 0 0 [(0xFFFF, 0xF5)])) = some .endOfOffsetSpace := by decide

/-- P4: the fetch goes through SEGBASE(CS). -/
theorem test_fetch_through_base :
    after { launchAt 0xFFF0 .s16 .s16 0xF0000 0xFFF2 [(0xFFFF0, 0xF5), (0xFFFF1, 0xF5)] with cf := true } =
      some (0xFFF1, false) := by decide

/-- P1, step 2: final at CODE_END; P8 and VP16: stuck outside MEM. -/
theorem test_final_and_stuck :
    faultOf (step (launchAt 0x1001 .s32 .s32 0 0x1001 [(0x1000, 0xF5)])) = some .runEnded ∧
    faultOf (step (launchAt 0x1001 .s32 .s32 0 0x1002 [(0x1000, 0xF5)])) = some (.stuck 0x1001) := by decide

/-- P5, step 2; P6; P7, step 2. -/
theorem test_refused_programs :
    refusalOf (step (launchAt 0x1001 .s32 .s32 0 0x1002 [(0x1000, 0xF5), (0x1001, 0x90)])) =
      some (.undecodable (.opcodeNotInMap (.one 0x90))) ∧
    refusalOf (step (program false 0x1002 [0x2E, 0xF5])) = some (.prefixWithoutEffect (.seg .cs)) ∧
    refusalOf (step (launchAt 0x1001 .s32 .s32 0 0x1002 [(0x1000, 0xF5), (0x1001, 0x66), (0x1002, 0xF5)])) =
      some .straddlesCodeEnd := by decide

/-- D30 and the text of R248: 0FH is refused either way, where MEM ends after it, at the last offset, after a prefix, and with its
second byte there; a map that has a two-byte key needs the byte (R133). -/
theorem test_escape_refused :
    refusalOf (step (program false 0 [0x0F])) = some (.undecodable (.opcodeNotInMap (.one 0x0F))) ∧
    refusalOf (step (launchAt 0xFFFF .s16 .s16 0 0 [(0xFFFF, 0x0F)])) = some (.undecodable (.opcodeNotInMap (.one 0x0F))) ∧
    refusalOf (step (program false 0 [0x66, 0x0F])) = some (.undecodable (.opcodeNotInMap (.one 0x0F))) ∧
    refusalOf (step (program false 0 [0x0F, 0xF5])) = some (.undecodable (.opcodeNotInMap (.esc 0xF5))) ∧
    lengthOrRefusal [0x0F] = .error .truncated := ⟨by decide, by decide, by decide, by decide, rfl⟩

/-- Sixteen bytes of the last offsets end the fetch at the offset space: a prefix at the last offset has no opcode (R68, D11). -/
theorem test_fetch_past_offset_space :
    refusalOf (step (launchAt 0xFFFF .s16 .s16 0 0 [(0xFFFF, 0x66), (0x10000, 0xF5)])) = some .pastOffsetSpace := by decide

/-- The host's words: the decoder reads each row's word, and from the reset state the next step runs CMC. -/
theorem test_table_words :
    decodeTableWord 8 0xF5 = some .cmc ∧ decodeTableWord 8 0xF3 = some (.rep [] (.one 0x00)) ∧
    decodeTableWord 8 0x67 = some (.adSizeOverride [] (.one 0x00)) ∧
    after (State.reset.withFetchWord 8 0xF5) = some (0xFFF1, true) := by decide

/-! ## The address specifier (section 2.3) -/

/-- The register values of section 2.3. -/
def regs : State :=
  { State.reset with
    gprs := { eax := 0x11112222, ecx := 3, edx := 0x80000010, ebx := 0xFFF0, esp := 0x1000, ebp := 0x2000, esi := 0x20,
              edi := 0xFFFFFFFF } }

/-- The r/m operand and the length. -/
def ea (A : Size) (bytes : List Byte) : Option (RmOperand × Nat) := (decodeAddrSpec A bytes regs).map fun x => (x.2.1, x.2.2)

/-- V16-1 to V16-8. -/
theorem test_v16_mod00 :
    [[0x00], [0x01], [0x02], [0x03], [0x04], [0x05], [0x06, 0x34, 0x12], [0x07]].map (ea .s16) =
    [some (.memory .ds 0x0010, 1), some (.memory .ds 0xFFEF, 1), some (.memory .ss 0x2020, 1), some (.memory .ss 0x1FFF, 1),
     some (.memory .ds 0x0020, 1), some (.memory .ds 0xFFFF, 1), some (.memory .ds 0x1234, 3), some (.memory .ds 0xFFF0, 1)] := by
  decide

/-- V16-9 to V16-16. -/
theorem test_v16_displacements :
    [[0x40, 0x10], [0x47, 0x80], [0x46, 0xFF], [0x7E, 0x00], [0x80, 0x00, 0x80], [0x87, 0x20, 0x00], [0x92, 0xFE, 0xFF],
     [0x9B, 0x01, 0x00]].map (ea .s16) =
    [some (.memory .ds 0x0020, 2), some (.memory .ds 0xFF70, 2), some (.memory .ss 0x1FFF, 2), some (.memory .ss 0x2000, 2),
     some (.memory .ds 0x8010, 3), some (.memory .ds 0x0010, 3), some (.memory .ss 0x201E, 3), some (.memory .ss 0x2000, 3)] := by
  decide

/-- V16-17 to V16-20, V32-29, V32-30. -/
theorem test_register_forms :
    [[0xC0], [0xFC], [0x2D], [0x39]].map (ea .s16) =
      [some (.register .eax, 1), some (.register .esp, 1), some (.memory .ds 0xFFFF, 1), some (.memory .ds 0xFFEF, 1)] ∧
    [[0xC4], [0xE5]].map (ea .s32) = [some (.register .esp, 1), some (.register .ebp, 1)] := by decide

/-- V32-1 to V32-6. -/
theorem test_v32_a :
    [[0x00], [0x03], [0x05, 0x78, 0x56, 0x34, 0x12], [0x06], [0x0F], [0x45, 0x08]].map (ea .s32) =
    [some (.memory .ds 0x11112222, 1), some (.memory .ds 0x0000FFF0, 1), some (.memory .ds 0x12345678, 5),
     some (.memory .ds 0x00000020, 1), some (.memory .ds 0xFFFFFFFF, 1), some (.memory .ss 0x00002008, 2)] := by decide

/-- V32-7 to V32-12. -/
theorem test_v32_b :
    [[0x45, 0x80], [0x42, 0x7F], [0x5F, 0x01], [0x83, 0x00, 0x00, 0x00, 0x80], [0x97, 0x02, 0x00, 0x00, 0x00],
     [0x85, 0xFC, 0xFF, 0xFF, 0xFF]].map (ea .s32) =
    [some (.memory .ss 0x00001F80, 2), some (.memory .ds 0x8000008F, 2), some (.memory .ds 0x00000000, 2),
     some (.memory .ds 0x8000FFF0, 5), some (.memory .ds 0x00000001, 5), some (.memory .ss 0x00001FFC, 5)] := by decide

/-- V32-13 to V32-19. -/
theorem test_v32_c :
    [[0x04, 0x24], [0x04, 0x00], [0x04, 0x88], [0x04, 0xC8], [0x04, 0xE0], [0x04, 0x25, 0x00, 0x10, 0x00, 0x00],
     [0x04, 0x8D, 0x10, 0x00, 0x00, 0x00]].map (ea .s32) =
    [some (.memory .ss 0x00001000, 2), some (.memory .ds 0x22224444, 2), some (.memory .ds 0x1111222E, 2),
     some (.memory .ds 0x1111223A, 2), some (.memory .ds 0x11112222, 2), some (.memory .ds 0x00001000, 6),
     some (.memory .ds 0x0000001C, 6)] := by decide

/-- V32-20 to V32-25. -/
theorem test_v32_d :
    [[0x04, 0x99], [0x04, 0x2B], [0x04, 0xFA], [0x04, 0x51], [0x44, 0x24, 0x04], [0x44, 0x8D, 0xF0]].map (ea .s32) =
    [some (.memory .ds 0x0003FFC3, 2), some (.memory .ds 0x00011FF0, 2), some (.memory .ds 0x80000008, 2),
     some (.memory .ds 0x00000023, 2), some (.memory .ss 0x00001004, 3), some (.memory .ss 0x00001FFC, 3)] := by decide

/-- V32-26 to V32-28, V32-31; and the note on V32-6 with an ES override. -/
theorem test_v32_e :
    [[0x44, 0x65, 0x10], [0x84, 0x35, 0x00, 0x01, 0x00, 0x00], [0x84, 0xB3, 0xFF, 0xFF, 0xFF, 0xFF], [0x3C, 0x3C]].map (ea .s32) =
    [some (.memory .ss 0x00002010, 3), some (.memory .ss 0x00002120, 6), some (.memory .ds 0x0001006F, 6),
     some (.memory .ss 0x00000FFF, 2)] ∧
    (ea .s32 [0x45, 0x08]).map (fun x => RmOperand.override [.seg .es] x.1) = some (.memory .es 0x00002008) := by decide

/-- The sample cells of S12 (Tables 17-2 to 17-4): row bits and reg, or base, give the byte. -/
theorem test_table_cells :
    [fieldsByte 0 7 6, fieldsByte 2 3 4, fieldsByte 3 7 0, fieldsByte 1 2 4, fieldsByte 0 4 7, fieldsByte 1 0 1, fieldsByte 3 7 7] =
      [0x3E, 0x9C, 0xF8, 0x54, 0x27, 0x41, 0xFF] ∧
    encodeAddrSpec ⟨7, .base16 .bp (.d8 0)⟩ = [0x7E, 0x00] ∧
    encodeAddrSpec ⟨0, .sib .x4 (some .ecx) .ebp (.d8 0xF0)⟩ = [0x44, 0x8D, 0xF0] := by decide

/-! ## Memory, bits, immediates, registers (sections 2.4 to 2.6) -/

/-- The memory of section 2.4. -/
def data : State :=
  launchAt 0 .s16 .s16 0 9 [(0x10100, 0x78), (0x10101, 0x56), (0x10102, 0x34), (0x10103, 0x12)]

/-- VM1 to VM6, VM9. -/
theorem test_memory_reads :
    data.addr .ds 0x0100 = 0x10100 ∧ data.addr .ds 0xFFFFFFFF = 0xFFFF ∧
    data.memRead .s16 .ds 0x100 1 = .ok 0x78 ∧ data.memRead .s16 .ds 0x100 2 = .ok 0x5678 ∧
    data.memRead .s16 .ds 0x100 4 = .ok 0x12345678 ∧ data.memRead .s16 .ds 0x102 2 = .ok 0x1234 ∧
    data.memRead .s16 .ds 0x101 2 = .ok 0x3456 := ⟨by decide, by decide, rfl, rfl, rfl, rfl, rfl⟩

/-- VM7 and VM8; and at the very end of the offset space a read that fits is not refused. -/
theorem test_memory_stops :
    data.memRead .s16 .ss 0x100 1 = .error (.fault (.stuck 0x20100)) ∧
    data.memRead .s16 .ds 0xFFFF 2 = .error (.refuse .pastOffsetSpace) ∧
    data.memRead .s16 .ds 0xFFFF 1 = .error (.fault (.stuck 0x1FFFF)) := ⟨rfl, rfl, rfl⟩

/-- R68: a write stores low-order byte first, keeps the list canonical, and is stuck outside MEM. -/
theorem test_memory_write :
    memAfter (data.memWrite .s16 .ds 0x101 2 0xABCD) =
      some [(0x10100, 0x78), (0x10101, 0xCD), (0x10102, 0xAB), (0x10103, 0x12)] ∧
    memAfter (data.memWrite .s16 .ds 0x103 2 0xABCD) = none := by decide

/-- VB1 to VB4 (S3: EAX = 00200000H and FFDFFFFFH at bit 21). -/
theorem test_bit_of_register :
    bitOfReg (0x00200000 : DWord) 21 = .ok true ∧ bitOfReg (0xFFDFFFFF : DWord) 21 = .ok false ∧
    bitOfReg (0x80000000 : DWord) 31 = .ok true ∧ bitOfReg (1 : DWord) 0 = .ok true ∧
    bitOfReg (1 : DWord) 32 = .error (.refuse .bitOffsetOutside) ∧
    bitOfReg (1 : Word) 16 = .error (.refuse .bitOffsetOutside) ∧
    bitOfReg (1 : DWord) (-1) = .error (.refuse .bitOffsetOutside) := ⟨rfl, rfl, rfl, rfl, rfl, rfl, rfl⟩

/-- VB5 to VB14, with b = 1000000000. -/
theorem test_bit_strings :
    [0, 7, 8, 13, -1, -8, -9, -11, 2147483647, -2147483648].map (bitAddress 1000000000) =
    [(1000000000, 0), (1000000000, 7), (1000000001, 0), (1000000001, 5), (999999999, 7), (999999999, 0), (999999998, 7),
     (999999998, 5), (1268435455, 7), (731564544, 0)] := by decide

/-- R55 through memory: bit 2 of 34H at DS:0102 is set, from base 0100 with offset 18, and from base 0103 with offset -6. -/
theorem test_bit_of_memory :
    data.bitOfMem .s16 .ds 0x100 18 = .ok true ∧ data.bitOfMem .s16 .ds 0x103 (-6) = .ok true ∧
    data.bitOfMem .s16 .ds 0 (-1) = .error (.refuse .bitOffsetOutside) := ⟨rfl, rfl, rfl⟩

/-- VI1 to VI4. -/
theorem test_imm8 :
    [imm8As .word 0x7F, imm8As .word 0x80, imm8As .word 0xFF, imm8As .word 0x00] = [0x007F, 0xFF80, 0xFFFF, 0x0000] ∧
    [imm8As .dword 0x7F, imm8As .dword 0x80, imm8As .dword 0xFF] = [0x0000007F, 0xFFFFFF80, 0xFFFFFFFF] := by decide

/-- VI5 to VI10. -/
theorem test_fields :
    leWord 0x34 0x12 = 0x1234 ∧ (leWord 0x00 0x80).toInt = -32768 ∧ leDWord 0x78 0x56 0x34 0x12 = 0x12345678 ∧
    (leDWord 0 0 0 0x80).toInt = -2147483648 ∧
    farPtrOfBytes .s32 [0x78, 0x56, 0x34, 0x12, 0xBC, 0x9A] = some ⟨0x9ABC, 0x12345678⟩ ∧
    farPtrOfBytes .s16 [0x34, 0x12, 0xBC, 0x9A] = some ⟨0x9ABC, 0x1234⟩ := by decide

/-- VG1 to VG6, with S15 naming code 4 AH, SP, ESP and code 7 BH, DI, EDI. -/
theorem test_opcode_registers :
    [regOfOpcode 0xB0 0xB0, regOfOpcode 0xB0 0xB4, regOfOpcode 0xB0 0xB7, regOfOpcode 0x50 0x54, regOfOpcode 0x58 0x5F,
     regOfOpcode 0x58 0x60, regOfOpcode 0x58 0x57] =
      [some .eax, some .esp, some .edi, some .esp, some .edi, none, none] := by decide

/-- R22, R23: with EAX = 11112222H, BH is FFH of EBX = FFF0H, AL and AH are 22H, SP is 1000H. -/
theorem test_register_overlap :
    regs.r8 .edi = 0xFF ∧ regs.r8 .eax = 0x22 ∧ regs.r8 .esp = 0x22 ∧ regs.r8 .ebx = 0xF0 ∧ regs.r16 .esp = 0x1000 ∧
    regs.r16 .edi = 0xFFFF ∧ (regs.setR8 .esp 0xAB).r32 .eax = 0x1111AB22 ∧ (regs.setR16 .edi 0).r32 .edi = 0xFFFF0000 ∧
    (regs.setR8 .edi 0).r32 .edi = 0xFFFFFFFF := by decide

/-- VR1 to VR4. -/
theorem test_rel8 :
    [relTarget 0x1000 2 (0x00 : Byte), relTarget 0x1000 2 (0x7F : Byte), relTarget 0x1000 2 (0x80 : Byte),
     relTarget 0x1000 2 (0xFE : Byte)] = [0x1002, 0x1081, 0x0F82, 0x1000] := by decide

/-- R117 with G12 (e), by hand: rel16 FFFCH at pc FFF0H with L = 3 reaches FFEFH, rel16 0020H there wraps to 0013H, rel32 -4 at 1000H
with L = 5 reaches 1001H, and rel32 0020H at FFFFFFF0H wraps to 00000015H; the fields are low-order byte first. -/
theorem test_rel16_rel32 :
    relTargetOf .s16 0xFFF0 3 0xFFFC = 0xFFEF ∧ relTargetOfBytes .s16 0xFFF0 3 [0x20, 0x00] = some 0x0013 ∧
    relTargetOfBytes .s32 0x1000 5 [0xFC, 0xFF, 0xFF, 0xFF] = some 0x1001 ∧ relTargetOf .s32 0xFFFFFFF0 5 0x20 = 0x15 ∧
    relTargetOfBytes .s16 0 3 [0x20, 0x00, 0x00, 0x00] = none := by decide

/-- The composite layouts of D25 (R56): far pointer, table operand, bounds. -/
theorem test_composites :
    data.readFarPtr .s16 .s16 .ds 0x100 = .ok ⟨0x1234, 0x5678⟩ ∧
    data.readBounds .s16 .s16 .ds 0x100 = .ok (0x5678, 0x1234) ∧
    (launchAt 0 .s16 .s16 0 9 [(0x10000, 0xFF), (0x10001, 0x03), (0x10002, 1), (0x10003, 2), (0x10004, 3), (0x10005, 4)]).readTable
      .s16 .ds 0 = .ok ⟨0x03FF, 0x04030201⟩ := ⟨rfl, rfl, rfl⟩

/-- R58, R59, R131: string and memory-offset operands. -/
theorem test_implied_operands :
    regs.stringSource .s16 [.seg .es] = (.es, 0x20) ∧ regs.stringDest .s16 = (.es, 0xFFFF) ∧
    regs.stringSource .s32 [.rep] = (.ds, 0x20) ∧ moffsOperand .s16 [.seg .fs] [0x34, 0x12] = some (.fs, 0x1234) ∧
    moffsOperand .s32 [] [0x78, 0x56, 0x34, 0x12] = some (.ds, 0x12345678) := by decide

/-- S14, with an error code: #GP(0) at pc 0. -/
theorem test_raise : faultOf (raiseException .gp (some 0) data) = some (.exception .gp 13 (some 0) 0) := by decide

/-! ## Witnesses: the hypotheses of each statement met together -/

/-- P2's program at its first step: CMC at 1000H, sizes 32/32. -/
def cmcAt : State := program false 0x1002 [0xF5, 0xF5]

/-- CmcFrame. -/
theorem witness_CmcFrame : exec .cmc cmcAt = .next { cmcAt with cf := true, pc := 0x1001 } := rfl

/-- InstructionPrefixesAreRefused, SegmentOverridesAreRefused, SizeOverridesAreRefused: each clause has an opcode. -/
theorem witness_PrefixesAreRefused : OpcodeKey.one 0xF5 = .one 0xF5 ∧ OpcodeKey.esc 0xF5 ≠ .one 0xF5 := by decide

/-- StepRunsDecodedInstruction, at the bounds: the instruction ends exactly at CODE_END and at the last successor offset. -/
theorem witness_StepRunsDecodedInstruction :
    let s := launchAt 0xFFFD .s16 .s16 0 0xFFFF [(0xFFFD, 0x66), (0xFFFE, 0xF5)]
    s.pc ≠ s.launch.codeEnd ∧ decode s.fetchWindow.1 = .ok (.opSizeOverride [] (.one 0xF5), 2) ∧
    s.pc.toNat + 2 ≤ s.codeSpan - 1 ∧ ¬ (s.pc.toNat < s.launch.codeEnd.toNat ∧ s.launch.codeEnd.toNat < s.pc.toNat + 2) :=
  ⟨by decide, rfl, by decide, by decide⟩

/-- StepRunsEncodedInstruction, for the longest instruction: four prefixes and a two-byte opcode. -/
theorem witness_StepRunsEncodedInstruction :
    let i := Instr.rep [.adSize, .opSize, .seg .cs] (.esc 0xF5)
    let s := program false 0x1006 [0xF3, 0x67, 0x66, 0x2E, 0x0F, 0xF5]
    i.wf = true ∧ s.HasBytesAtPc (encode i) ∧ s.pc ≠ s.launch.codeEnd ∧ s.pc.toNat + (encode i).length ≤ s.codeSpan - 1 ∧
    ¬ (s.pc.toNat < s.launch.codeEnd.toNat ∧ s.launch.codeEnd.toNat < s.pc.toNat + (encode i).length) :=
  ⟨by decide, hasBytes (by decide), by decide, by decide, by decide⟩

/-- StepAdvancesExactlyOnCmc, both ways. -/
theorem witness_StepAdvancesExactlyOnCmc :
    step cmcAt = .next { cmcAt with cf := true, pc := 0x1001 } ∧ cmcAt.pc ≠ cmcAt.launch.codeEnd ∧
    cmcAt.pc.toNat + 1 ≤ cmcAt.codeSpan - 1 ∧ Memory.get? cmcAt.mem (cmcAt.addr .cs cmcAt.pc.toNat) = some 0xF5 :=
  ⟨rfl, by decide, by decide, by decide⟩

/-- RunEndsExactlyAtCodeEnd. -/
theorem witness_RunEndsExactlyAtCodeEnd : (program false 0x1000 [0xF5]).pc = (program false 0x1000 [0xF5]).launch.codeEnd := rfl

/-- StepStuckOutsideMemory, at the last offset. -/
theorem witness_StepStuckOutsideMemory :
    let s := launchAt 0xFFFF .s16 .s16 0 0 []
    s.pc ≠ s.launch.codeEnd ∧ s.pc.toNat + 1 ≤ s.codeSpan ∧ Memory.get? s.mem (s.addr .cs s.pc.toNat) = none := by decide

/-- UnknownOpcodeRefused, at the last offset. -/
theorem witness_UnknownOpcodeRefused :
    let s := launchAt 0xFFFF .s16 .s16 0 0 [(0xFFFF, 0x90)]
    s.pc ≠ s.launch.codeEnd ∧ s.pc.toNat + 1 ≤ s.codeSpan ∧ s.HasBytesAtPc [0x90] ∧
    (0x90 : Byte) ∉ prefixValues ∧ (0x90 : Byte) ≠ 0x0F ∧ (0x90 : Byte) ≠ 0xF5 :=
  ⟨by decide, by decide, hasBytes (by decide), by decide, by decide, by decide⟩

/-- TwoByteOpcodeRefused, at the last two offsets; and 0FH at the last offset, with and without a prefix before it. -/
theorem witness_TwoByteOpcodeRefused :
    (let s := launchAt 0xFFFE .s16 .s16 0 0 [(0xFFFE, 0x0F), (0xFFFF, 0xF5)]
     s.pc ≠ s.launch.codeEnd ∧ s.pc.toNat + 2 ≤ s.codeSpan ∧ s.HasBytesAtPc [0x0F, 0xF5]) ∧
    (let s := launchAt 0xFFFF .s16 .s16 0 0 [(0xFFFF, 0x0F)]
     s.pc ≠ s.launch.codeEnd ∧ s.pc.toNat + 0 + 1 ≤ s.codeSpan ∧ s.HasBytesAtPc (([] : List PrefixByte).map PrefixByte.byte ++ [0x0F])) ∧
    (let s := launchAt 0xFFFE .s16 .s16 0 0 [(0xFFFE, 0x66), (0xFFFF, 0x0F)]
     s.pc ≠ s.launch.codeEnd ∧ s.pc.toNat + 1 + 1 ≤ s.codeSpan ∧ s.HasBytesAtPc ([PrefixByte.opSize].map PrefixByte.byte ++ [0x0F])) :=
  ⟨⟨by decide, by decide, hasBytes (by decide)⟩, ⟨by decide, by decide, hasBytes (by decide)⟩,
   by decide, by decide, hasBytes (by decide)⟩

/-- PrefixedCmcRefused, once with one prefix at the end of the offset space, once with a repeated group. -/
theorem witness_PrefixedCmcRefused :
    (let s := launchAt 0xFFFE .s16 .s16 0 0 [(0xFFFE, 0x2E), (0xFFFF, 0xF5)]
     [PrefixByte.seg .cs] ≠ [] ∧ s.pc ≠ s.launch.codeEnd ∧ s.pc.toNat + 1 + 1 ≤ s.codeSpan ∧
      s.HasBytesAtPc ([PrefixByte.seg .cs].map PrefixByte.byte ++ [0xF5])) ∧
    (program false 0 [0xF3, 0xF0, 0xF5]).HasBytesAtPc ([PrefixByte.rep, .lock].map PrefixByte.byte ++ [0xF5]) :=
  ⟨⟨by decide, by decide, by decide, hasBytes (by decide)⟩, hasBytes (by decide)⟩

/-- EndOfOffsetSpaceRefused. -/
theorem witness_EndOfOffsetSpaceRefused :
    let s := launchAt 0xFFFF .s16 .s16 0 0 [(0xFFFF, 0xF5)]
    s.pc ≠ s.launch.codeEnd ∧ s.pc.toNat + 1 = s.codeSpan ∧ s.HasBytesAtPc [0xF5] :=
  ⟨by decide, by decide, hasBytes (by decide)⟩

/-- StraddlingInstructionRefused (P7's second step). -/
theorem witness_StraddlingInstructionRefused :
    let i := Instr.opSizeOverride [] (.one 0xF5)
    let s := launchAt 0x1001 .s32 .s32 0 0x1002 [(0x1001, 0x66), (0x1002, 0xF5)]
    i.wf = true ∧ s.HasBytesAtPc (encode i) ∧ s.pc.toNat < s.launch.codeEnd.toNat ∧
    s.launch.codeEnd.toNat < s.pc.toNat + (encode i).length ∧ s.pc.toNat + (encode i).length ≤ s.codeSpan - 1 :=
  ⟨by decide, hasBytes (by decide), by decide, by decide, by decide⟩

/-- StepKeepsInvariant, StepKeepsParametersAndMemory. -/
theorem witness_StepKeepsInvariant : cmcAt.Inv ∧ step cmcAt = .next { cmcAt with cf := true, pc := 0x1001 } :=
  ⟨⟨by decide, by decide⟩, rfl⟩

/-- PlacedWordLiesAtPc. -/
theorem witness_PlacedWordLiesAtPc : Memory.wf data.mem = true := by decide

/-- SegmentOverrideBytes, OverrideChangesOnlyTheSegment: an override among prefixes, and prefixes without one. -/
theorem witness_OverrideChangesOnlyTheSegment :
    onePerGroup [.opSize, .seg .fs, .rep] = true ∧ PrefixByte.seg .fs ∈ [.opSize, .seg .fs, .rep] ∧
    onePerGroup [.lock] = true ∧ ∀ r, PrefixByte.seg r ∉ [PrefixByte.lock] :=
  ⟨by decide, by decide, by decide, by intro r; cases r <;> decide⟩

/-- SecondPrefixOfGroupRefused: the same byte twice, and another byte of the group. -/
theorem witness_SecondPrefixOfGroupRefused :
    onePerGroup [.opSize] = true ∧ PrefixByte.opSize.group ∈ [PrefixByte.opSize].map PrefixByte.group ∧
    PrefixByte.lock.group ∈ [PrefixByte.rep].map PrefixByte.group := by decide

/-- PrefixesAcceptedInAnyOrder (VP10's prefixes, in the order of Figure 17-1 and in another). -/
theorem witness_PrefixesAcceptedInAnyOrder :
    [PrefixByte.rep, .adSize, .opSize, .seg .cs] ≠ [] ∧
    [PrefixByte.rep, .adSize, .opSize, .seg .cs].Perm [.opSize, .adSize, .seg .cs, .rep] ∧
    onePerGroup [.rep, .adSize, .opSize, .seg .cs] = true ∧ OpcodeKey.wf (.one 0xF5) = true := by decide

/-- DecodeInvertsEncode: every constructor has a well-formed instruction. -/
theorem witness_DecodeInvertsEncode :
    ([.cmc, .rep [.seg .es] (.one 0xA4), .repeRepz [] (.one 0xA6), .repneRepnz [] (.one 0xAE), .lock [] (.esc 0),
      .csOverride [] (.one 0), .ssOverride [] (.one 0), .dsOverride [] (.one 0), .esOverride [] (.one 0),
      .fsOverride [] (.one 0), .gsOverride [] (.one 0), .opSizeOverride [.adSize] (.one 0xFF),
      .adSizeOverride [.opSize] (.one 0xFF)] : List Instr).all Instr.wf = true := by decide

/-- EncodeInvertsDecode, ModelDecoderRefinesR133: bytes read as CMC and bytes read as a prefix row, in and outside the map. -/
theorem witness_EncodeInvertsDecode :
    decode [0xF5, 0xF5] = .ok (.cmc, 1) ∧ decode [0x65, 0xF5] = .ok (.gsOverride [] (.one 0xF5), 2) ∧
    decode [0x65, 0x0F, 0xF5] = .ok (.gsOverride [] (.esc 0xF5), 3) ∧ Instr.gsOverride [] (.one 0xF5) ≠ .cmc ∧
    ∃ d, decodeWith opcodeMap .s16 .s16 [0xF5, 0xF5] = .ok d := ⟨rfl, rfl, rfl, by decide, _, rfl⟩

/-- InstructionIsItsFieldsInOrder: an instruction with every field, of fifteen bytes. -/
theorem witness_InstructionIsItsFieldsInOrder :
    ∃ d, decodeWith hypotheticalMap .s16 .s16 [0x67, 0x66, 0x2E, 0x0F, 0xAA, 0x84, 0x00, 1, 2, 3, 4, 5, 6, 7, 8] = .ok d :=
  ⟨_, rfl⟩

/-- AddrSpecDecodeInvertsEncode: every form has a well-formed specifier. -/
theorem witness_AddrSpecDecodeInvertsEncode :
    AddrSpec.wf .s16 ⟨0, .reg .edi⟩ = true ∧ AddrSpec.wf .s16 ⟨1, .base16 .bp (.full 0xFFFF)⟩ = true ∧
    AddrSpec.wf .s16 ⟨2, .disp16 0x1234⟩ = true ∧ AddrSpec.wf .s32 ⟨3, .base32 .ebp (.d8 0x80)⟩ = true ∧
    AddrSpec.wf .s32 ⟨4, .disp32 0⟩ = true ∧ AddrSpec.wf .s32 ⟨5, .sib .x8 none .esp .none⟩ = true ∧
    AddrSpec.wf .s32 ⟨6, .sibDisp32 .x4 (some .ecx) 0x10⟩ = true := by decide

/-- AddrSpecEncodeInvertsDecode. -/
theorem witness_AddrSpecEncodeInvertsDecode :
    takeAddrSpec .s32 [0x44, 0x8D, 0xF0, 0x90] = some (⟨0, .sib .x4 (some .ecx) .ebp (.d8 0xF0)⟩, [0x90]) := by decide

/-- AddressSpecifier16 at mod = 10, AddressSpecifier32 and AddressSpecifierIsTotal at six bytes, each with as few bytes as allowed. -/
theorem witness_AddressSpecifier :
    3 ≤ [(0x92 : Byte), 0xFE, 0xFF].length ∧ modN [0x92, 0xFE, 0xFF] ≠ 3 ∧
    6 ≤ [(0x84 : Byte), 0x35, 0x00, 0x01, 0x00, 0x00].length ∧ modN [0x84, 0x35, 0x00, 0x01, 0x00, 0x00] ≠ 3 := by decide

/-- RegisterFormUnderBothSizes, RegFieldNeverAffectsForm. -/
theorem witness_RegisterForm :
    topField 0xFC = 3 ∧ topField 0x46 = topField 0x7E ∧ lowField 0x46 = lowField 0x7E := by decide

/-- SibBytePresence: a specifier with a SIB byte and one without. -/
theorem witness_SibBytePresence :
    takeAddrSpec .s32 [0x3C, 0x3C] = some (⟨7, .sib .x1 (some .edi) .esp .none⟩, []) ∧
    takeAddrSpec .s16 [0x3C] = some (⟨7, .base16 .si .none⟩, []) := by decide

/-- DefaultSegment16: the BP forms, and disp16 alone beside [BP] + disp8. -/
theorem witness_DefaultSegment16 :
    decodeAddrSpec .s16 [0x46, 0xFF] regs = some (0, .memory .ss 0x1FFF, 2) ∧
    decodeAddrSpec .s16 [0x06, 0x34, 0x12] regs = some (0, .memory .ds 0x1234, 3) := by decide

/-- WordWriteKeepsUpperHalf, ByteWriteChangesItsByteOnly, SegmentRegisterCodesAndWrites: another register. -/
theorem witness_OtherRegister : GReg.ecx ≠ .eax ∧ SReg.ds ≠ .cs := by decide

/-- BitOfRegister: the last bit inside a word register, and the first outside it on either end. -/
theorem witness_BitOfRegister :
    (0 ≤ (15 : Int) ∧ (15 : Int) < (16 : Nat)) ∧ ¬ (0 ≤ (16 : Int) ∧ (16 : Int) < (16 : Nat)) ∧
    ¬ (0 ≤ (-1 : Int) ∧ (-1 : Int) < (16 : Nat)) := by decide

/-- MemReadIsLittleEndian, at the very end of the offset space. -/
theorem witness_MemReadIsLittleEndian :
    let s := launchAt 0 .s16 .s16 0 9 [(0x1FFFE, 0x34), (0x1FFFF, 0x12)]
    0xFFFE + 2 ≤ 2 ^ Size.s16.bits ∧ ∀ k < 2, (Memory.get? s.mem (s.addr .ds (0xFFFE + k))).isSome := by decide

/-- MemReadStops: one byte past the end, and a byte outside MEM. -/
theorem witness_MemReadStops :
    2 ^ Size.s16.bits < 0xFFFF + 2 ∧
    (0x103 + 2 ≤ 2 ^ Size.s16.bits ∧ ∃ k < 2, Memory.get? data.mem (data.addr .ds (0x103 + k)) = none) :=
  ⟨by decide, by decide, 1, by decide, by decide⟩

/-- MemReadAfterWrite, MemWriteFrame: a write that answers, one that is refused and one that is stuck. -/
theorem witness_MemWrite :
    (∃ t, data.memWrite .s16 .ds 0x102 2 0xABCD = .ok t ∧ Memory.wf data.mem = true) ∧
    (0x102 + 2 ≤ 2 ^ Size.s16.bits ∧ ∀ k < 2, (Memory.get? data.mem (data.addr .ds (0x102 + k))).isSome) ∧
    2 ^ Size.s16.bits < 0xFFFF + 2 ∧
    (0x103 + 2 ≤ 2 ^ Size.s16.bits ∧ ∃ k < 2, Memory.get? data.mem (data.addr .ds (0x103 + k)) = none) :=
  ⟨⟨_, rfl, by decide⟩, by decide, by decide, by decide, 1, by decide, by decide⟩

/-- TableLoadsSetLimitAndBase. -/
theorem witness_TableLoads :
    let s := launchAt 0 .s16 .s16 0 9
      [(0x1FFFA, 0xFF), (0x1FFFB, 0x03), (0x1FFFC, 1), (0x1FFFD, 2), (0x1FFFE, 3), (0x1FFFF, 4)]
    0xFFFA + 6 ≤ 2 ^ Size.s16.bits ∧ s.memRead .s16 .ds 0xFFFA 2 = .ok 0x03FF ∧
    s.memRead .s16 .ds (0xFFFA + 2) 4 = .ok 0x04030201 := ⟨by decide, rfl, rfl⟩

/-- Rel8CountsFromTheEnd: both ends of the range, and the two addresses just outside it. -/
theorem witness_Rel8CountsFromTheEnd :
    relTarget 0x1000 2 (0x7F : Byte) = 0x1000 + 2 + 127 ∧ relTarget 0x1000 2 (0x80 : Byte) = 0x1000 + 2 - 128 := by decide

/-- OpcodeRegisterCode: the largest XX with room for eight codes. -/
theorem witness_OpcodeRegisterCode : (0xF8 : Byte).toNat ≤ 248 := by decide

end Sys2Proof.Tests
end

section
/-! PROOF. The address of a bit of a memory bit string (R55). -/

namespace Sys2Proof.Machine

/-- The division of `k` by 8 that fixes the byte and the bit: the quotient is how far the byte lies from `BITBASE`, on either side of
it, and the remainder is the bit's number (R55). -/
theorem bitAddress_eq_iff (b k off : Int) (i : Nat) :
    bitAddress b k = (off, i) ↔ i < 8 ∧ k = 8 * (off - b) + i := by
  have division : k / 8 = off - b ∧ k % 8 = i ↔ (i : Int) + 8 * (off - b) = k ∧ 0 ≤ (i : Int) ∧ (i : Int) < 8 :=
    Int.ediv_emod_unique (by decide)
  have components : bitAddress b k = (off, i) ↔ k / 8 = off - b ∧ k % 8 = i := by
    rw [bitAddress, Prod.mk.injEq]
    omega
  rw [components, division]
  omega

/-- Settles O50: the quotient and the remainder by 8 are unique, and each drawing of Figure 17-4 is the division of its offset,
13 = 8 * 1 + 5 and -11 = 8 * (-2) + 5. -/
theorem bitStringAddress : Obligations.BitStringAddress := by
  refine ⟨bitAddress_eq_iff, fun b => ?positive, fun b => ?negative⟩
  case positive => exact (bitAddress_eq_iff b 13 (b + 1) 5).mpr ⟨by decide, by omega⟩
  case negative => exact (bitAddress_eq_iff b (-11) (b - 2) 5).mpr ⟨by decide, by omega⟩

end Sys2Proof.Machine
end

section
/-! PROOF. The segment override prefixes (R85). -/

namespace Sys2Proof.Machine

/-- The first override decides, and where each group has at most one it is the only one. -/
theorem segmentOf_eq_of_mem (default r : SReg) {ps : List PrefixByte} (one : onePerGroup ps = true)
    (mem : .seg r ∈ ps) : segmentOf default ps = r := by
  induction ps with
  | nil => cases mem
  | cons p ps ih =>
    simp only [onePerGroup_iff_nodup, List.map_cons, List.nodup_cons] at one ih
    obtain ⟨fresh, one⟩ := one
    rcases List.mem_cons.mp mem with rfl | later
    · rfl
    · cases p with
      | seg q => exact absurd (List.mem_map_of_mem (f := PrefixByte.group) later) fresh
      | _ => exact ih one later

/-- Settles O26: the table of R85 row by row, and the one override among the prefixes, by induction on them. -/
theorem segmentOverrideBytes : Obligations.SegmentOverrideBytes :=
  ⟨by decide, fun _ default r => segmentOf_eq_of_mem default r⟩

end Sys2Proof.Machine
end

section
/-! PROOF. The ModR/M and SIB bytes: their layout (R93, R101), when a SIB byte is read (R100), and the default segment of
16-bit addressing (R98). -/

namespace Sys2Proof.Machine

/-! ### Layout -/

theorem topField_toNat (b : Byte) : (topField b).toNat = b.toNat / 64 := by
  have := b.isLt
  simp only [topField, BitVec.extractLsb'_toNat, Nat.shiftRight_eq_div_pow]
  omega

theorem midField_toNat (b : Byte) : (midField b).toNat = b.toNat / 8 % 8 := by
  simp only [midField, BitVec.extractLsb'_toNat, Nat.shiftRight_eq_div_pow]

theorem lowField_toNat (b : Byte) : (lowField b).toNat = b.toNat % 8 := by
  simp only [lowField, BitVec.extractLsb'_toNat, Nat.shiftRight_zero]

/-- A byte is the sum of its fields, and the fields of `fieldsByte` are its arguments. -/
theorem fieldsByte_toNat (t : BitVec 2) (m l : BitVec 3) :
    (fieldsByte t m l).toNat = t.toNat * 64 + m.toNat * 8 + l.toNat := by
  have top := topField_toNat (fieldsByte t m l)
  have mid := midField_toNat (fieldsByte t m l)
  have low := lowField_toNat (fieldsByte t m l)
  rw [topField_fieldsByte] at top
  rw [midField_fieldsByte] at mid
  rw [lowField_fieldsByte] at low
  omega

/-- Settles O35: each field by shifting and masking, and the byte as the sum of its fields. -/
theorem modRmAndSibLayout : Obligations.ModRmAndSibLayout :=
  ⟨fun b => ⟨topField_toNat b, midField_toNat b, lowField_toNat b⟩, fieldsByte_toNat⟩

theorem modN_cons (m : Byte) (rest : List Byte) : modN (m :: rest) = (topField m).toNat := (topField_toNat m).symm

theorem rmN_cons (m : Byte) (rest : List Byte) : rmN (m :: rest) = (lowField m).toNat := (lowField_toNat m).symm

/-! ### What the readers of a form return -/

/-- Inversion of reading an address specifier: a register, or a form of the address size's table (R95, R106). -/
theorem takeAddrSpec_some {A : Size} {m : Byte} {rest left : List Byte} {sp : AddrSpec}
    (h : takeAddrSpec A (m :: rest) = some (sp, left)) :
    (topField m = 3 ∧ sp.rm = .reg (GReg.ofCode (lowField m))) ∨
    (topField m ≠ 3 ∧
      ((A = .s16 ∧ takeForm16 (topField m) (lowField m) rest = some (sp.rm, left)) ∨
       (A = .s32 ∧ takeForm32 (topField m) (lowField m) rest = some (sp.rm, left)))) := by
  rw [takeAddrSpec_cons] at h
  split at h
  case isTrue register => cases h; exact .inl ⟨register, rfl⟩
  case isFalse memory =>
    obtain ⟨⟨f, l⟩, form, eq⟩ := Option.map_eq_some_iff.mp h
    cases eq
    cases A with
    | s16 => exact .inr ⟨memory, .inl ⟨rfl, form⟩⟩
    | s32 => exact .inr ⟨memory, .inr ⟨rfl, form⟩⟩

/-- Inversion of reading a 16-bit form: disp16 alone for mod = 00 with r/m = 110, else the registers of r/m (R96). -/
theorem takeForm16_some {md : BitVec 2} {rm : BitVec 3} {bytes left : List Byte} {f : RmForm}
    (h : takeForm16 md rm bytes = some (f, left)) :
    (md = 0 ∧ rm = 6 ∧ ∃ d, f = .disp16 d) ∨ (¬ (md = 0 ∧ rm = 6) ∧ ∃ d, f = .base16 (Base16.ofCode rm) d) := by
  unfold takeForm16 at h
  split at h
  all_goals
    rename_i cond
    obtain ⟨⟨d, l⟩, -, eq⟩ := Option.map_eq_some_iff.mp h
    cases eq
  · exact .inl ⟨cond.1, cond.2, d, rfl⟩
  · exact .inr ⟨cond, d, rfl⟩

/-- No 16-bit form has a SIB byte (R100). -/
theorem hasSib_of_takeForm16 {md : BitVec 2} {rm : BitVec 3} {bytes left : List Byte} {f : RmForm}
    (h : takeForm16 md rm bytes = some (f, left)) : hasSib f = false := by
  rcases takeForm16_some h with ⟨-, -, d, rfl⟩ | ⟨-, d, rfl⟩ <;> rfl

/-- A 32-bit form has a SIB byte exactly when r/m = 100 (R100). -/
theorem hasSib_iff_of_takeForm32 {md : BitVec 2} {rm : BitVec 3} {bytes left : List Byte} {f : RmForm}
    (h : takeForm32 md rm bytes = some (f, left)) : hasSib f = true ↔ rm = 4 := by
  unfold takeForm32 at h
  split at h
  case isTrue sib =>
    cases bytes with
    | nil => cases h
    | cons s rest =>
      dsimp only at h
      split at h
      all_goals
        obtain ⟨⟨d, l⟩, -, eq⟩ := Option.map_eq_some_iff.mp h
        cases eq
        exact iff_of_true rfl sib
  case isFalse plain =>
    split at h
    all_goals
      obtain ⟨⟨d, l⟩, -, eq⟩ := Option.map_eq_some_iff.mp h
      cases eq
      exact iff_of_false Bool.false_ne_true plain

/-! ### The SIB byte -/

/-- A SIB byte by the fields of the ModR/M byte (R100). -/
theorem hasSib_iff_of_takeAddrSpec {A : Size} {m : Byte} {rest left : List Byte} {sp : AddrSpec}
    (h : takeAddrSpec A (m :: rest) = some (sp, left)) :
    hasSib sp.rm = true ↔ A = .s32 ∧ topField m ≠ 3 ∧ lowField m = 4 := by
  rcases takeAddrSpec_some h with ⟨register, hrm⟩ | ⟨memory, ⟨rfl, form⟩ | ⟨rfl, form⟩⟩
  · simp [hrm, hasSib, register]
  · simp [hasSib_of_takeForm16 form]
  · rw [hasSib_iff_of_takeForm32 form]
    exact ⟨fun low => ⟨rfl, memory, low⟩, fun ⟨_, _, low⟩ => low⟩

/-- The 24 ModR/M values with mod not 11 and r/m = 100 (R100). -/
theorem sib_fields_iff_mem : ∀ m : Byte, topField m ≠ 3 ∧ lowField m = 4 ↔
    m ∈ [0x04, 0x0C, 0x14, 0x1C, 0x24, 0x2C, 0x34, 0x3C, 0x44, 0x4C, 0x54, 0x5C, 0x64, 0x6C, 0x74, 0x7C,
      0x84, 0x8C, 0x94, 0x9C, 0xA4, 0xAC, 0xB4, (0xBC : Byte)] := by decide

/-- Settles O43: the SIB byte is read by the fields mod and r/m, and the 24 values are the bytes with those fields. -/
theorem sibBytePresence : Obligations.SibBytePresence := fun _ m _ _ _ h =>
  (hasSib_iff_of_takeAddrSpec h).trans (and_congr_right fun _ => sib_fields_iff_mem m)

/-! ### The default segment of 16-bit addressing -/

/-- Where mod = 00 with r/m = 110 is left out (it is disp16 alone), the registers of r/m contain BP for the values R98 names. -/
theorem defaultSeg_ofCode : ∀ (md : BitVec 2) (rm : BitVec 3), md ≠ 3 → ¬ (md = 0 ∧ rm = 6) →
    Base16.defaultSeg (Base16.ofCode rm) =
      if rm.toNat = 2 ∨ rm.toNat = 3 ∨ (rm.toNat = 6 ∧ (md.toNat = 1 ∨ md.toNat = 2)) then .ss else .ds := by decide

/-- Settles O44: a register is no memory operand, disp16 alone takes DS, and a form with registers the segment of its r/m. -/
theorem defaultSegment16 : Obligations.DefaultSegment16 := by
  intro s bytes reg seg ea n h
  obtain ⟨⟨sp, left⟩, taken, eq⟩ := Option.map_eq_some_iff.mp h
  simp only [Prod.mk.injEq] at eq
  obtain ⟨-, operand, -⟩ := eq
  cases bytes with
  | nil => cases taken
  | cons m rest =>
    rw [modN_cons, rmN_cons]
    rcases takeAddrSpec_some taken with ⟨-, hrm⟩ | ⟨memory, ⟨-, form⟩ | ⟨size, -⟩⟩
    · rw [hrm] at operand
      cases operand
    · rcases takeForm16_some form with ⟨hmod, hlow, d, hrm⟩ | ⟨plain, d, hrm⟩
      · rw [hrm] at operand
        cases operand
        rw [hmod, hlow]
        decide
      · rw [hrm] at operand
        cases operand
        exact defaultSeg_ofCode _ _ memory plain
    · cases size

end Sys2Proof.Machine
end

section
/-! PROOF. The sign extension of imm8 (R122). -/

namespace Sys2Proof.Machine

/-- Sign extension to a width of at least a byte keeps the signed value (R122). -/
theorem imm8As_toInt (w : Width) (ib : Byte) : (imm8As w ib).toInt = ib.toInt :=
  BitVec.toInt_signExtend_of_le (by cases w <;> decide)

/-- The upper byte of the word: eight copies of the topmost bit (R122). -/
theorem imm8As_word_upper (ib : Byte) :
    (imm8As .word ib).extractLsb' 8 8 = if ib.msb then 0xFF else 0x00 := by
  have copies : ∀ i < 8, ((imm8As .word ib).extractLsb' 8 8).getLsbD i = ib.msb := by
    intro i hi
    have inWord : 8 + i < 16 := by omega
    simp [imm8As, Width.bits, BitVec.getElem_signExtend, hi, inWord]
  apply BitVec.eq_of_getLsbD_eq
  intro i hi
  rw [copies i hi]
  cases ib.msb with
  | false => simp
  | true => exact ((BitVec.getLsbD_allOnes (v := 8)).trans (decide_eq_true hi)).symm

/-- Settles O57: both extensions keep the signed value, the word's upper byte is the sign, and a byte's signed range is that of R122. -/
theorem imm8IsSignExtended : Obligations.Imm8IsSignExtended := fun ib =>
  ⟨imm8As_toInt .word ib, imm8As_toInt .dword ib, imm8As_word_upper ib, BitVec.le_toInt ib,
    Int.lt_add_one_iff.mp BitVec.toInt_lt⟩

end Sys2Proof.Machine
end

section
/-! PROOF. The exceptions and their interrupt numbers (Table 17-6, R201). -/

namespace Sys2Proof.Machine

/-- Every exception has the number of one of the nine rows of Table 17-6 (R201). -/
theorem interruptNumber_mem_table (e : ExceptionName) : interruptNumber e ∈ [6, 7, 8, 10, 11, 12, 13, 14, 16] := by
  cases e <;> decide

/-- Settles O24: the nine rows by computation; the absent numbers because every exception's number stands in the table, which
holds none of them. -/
theorem exceptionNumbersAreTable17_6 : Obligations.ExceptionNumbersAreTable17_6 := by
  have absent : ∀ n ∈ [6, 7, 8, 10, 11, 12, 13, 14, 16], 6 ≤ n ∧ n ≤ 16 ∧ n ≠ 9 ∧ n ≠ 15 := by decide
  exact ⟨rfl, fun e => absent _ (interruptNumber_mem_table e)⟩

end Sys2Proof.Machine
end

section
/-! PROOF. The model's decoder and its encoder: each undoes the other (R80, R84 to R90), a repeated group is refused
(R88), and the order of the prefixes does not matter (R88, D4). -/

namespace Sys2Proof.Machine

/-! ### What decode answers, by its parts -/

/-- The bytes of prefixes before a well-formed opcode are scanned off whole (R87). -/
theorem scanPrefixes_fields {ps : List PrefixByte} {k : OpcodeKey} (one : onePerGroup ps = true) (wf : k.wf = true)
    (rest : List Byte) :
    scanPrefixes [] (ps.map PrefixByte.byte ++ (k.bytes ++ rest)) = .ok (ps, k.bytes ++ rest) := by
  obtain ⟨b, l, bytes, notPrefix⟩ := OpcodeKey.bytes_head wf
  rw [bytes]
  exact scanPrefixes_bytes notPrefix _ ps [] one (by simp)

/-- A scan that finds prefixes, and an opcode after them: the instruction of the first. -/
theorem decode_of_scan {bytes left rest : List Byte} {p : PrefixByte} {more : List PrefixByte} {k : OpcodeKey}
    (scan : scanPrefixes [] bytes = .ok (p :: more, left)) (key : readKey opcodeMap left = .ok (k, rest)) :
    decode bytes = .ok (instrOfFirst p more k, (p :: more).length + k.bytes.length) := by
  simp only [decode, scan, key]

/-- F5 alone is CMC (R150). -/
theorem decode_cmc_bytes (rest : List Byte) : decode (0xF5 :: rest) = .ok (.cmc, 1) := rfl

/-- An instruction with prefixes is read back from its fields. -/
theorem decode_fields {p : PrefixByte} {more : List PrefixByte} {k : OpcodeKey} (one : onePerGroup (p :: more) = true)
    (wf : k.wf = true) (rest : List Byte) :
    decode ((p :: more).map PrefixByte.byte ++ (k.bytes ++ rest)) =
      .ok (instrOfFirst p more k, (p :: more).length + k.bytes.length) :=
  decode_of_scan (scanPrefixes_fields one wf rest) (readKey_bytes wf rest)

/-- Inversion of a decode that answers: the scan found the instruction's prefixes and the key its opcode. -/
theorem decode_ok {bytes : List Byte} {i : Instr} {n : Nat} (h : decode bytes = .ok (i, n)) :
    ∃ left rest, scanPrefixes [] bytes = .ok (i.prefixes, left) ∧ readKey opcodeMap left = .ok (i.key, rest) ∧
      i.spelling = i ∧ n = i.prefixes.length + i.key.bytes.length := by
  unfold decode at h
  split at h
  · cases h
  · rename_i ps left scan
    split at h
    · cases h
    · rename_i k rest key
      split at h
      · cases h
        exact ⟨left, rest, by simpa using scan, by simpa using key, by simp, by simp⟩
      · rw [lookupKey_opcodeMap] at h
        split at h
        · cases h
        · rename_i j entry
          split at entry
          · rename_i hk
            subst hk
            cases entry
            cases h
            exact ⟨left, rest, scan, key, rfl, rfl⟩
          · cases entry

/-! ### Decode of encode, encode of decode -/

/-- Settles O31: an instruction without prefixes is CMC, whose byte is read at once; one with prefixes is read back from its
fields. -/
theorem decodeInvertsEncode : Obligations.DecodeInvertsEncode := by
  intro i rest wf
  simp only [Instr.wf, Bool.and_eq_true] at wf
  obtain ⟨one, keyWf⟩ := wf
  cases prefixes : i.prefixes with
  | nil =>
    obtain rfl := Instr.eq_cmc prefixes
    exact decode_cmc_bytes rest
  | cons p more =>
    rw [prefixes] at one
    have fields := decode_fields one keyWf rest
    rw [encode_layout, prefixes, Instr.spelling_eq prefixes, List.append_assoc, fields, List.length_append, List.length_map]

/-- Settles O32: the bytes are those of the prefixes scanned off and of the key read, and the bytes of a well-formed instruction are
one to six. -/
theorem encodeInvertsDecode : Obligations.EncodeInvertsDecode := by
  intro bytes i n h
  obtain ⟨left, rest, scan, key, spelling, length⟩ := decode_ok h
  obtain ⟨split, one, -, b, l, head, notPrefix⟩ := scanPrefixes_ok scan
  obtain ⟨keyBytes, keyWf⟩ := readKey_ok key
  have wf : i.wf = true := by
    rw [Instr.wf, one, Bool.true_and]
    exact keyWf b (by rw [head]; rfl) notPrefix
  have all : bytes = encode i ++ rest := by rw [split, keyBytes, encode_layout, List.append_assoc]
  have n_eq : n = (encode i).length := by rw [length, encode_layout, List.length_append, List.length_map]
  obtain ⟨least, most⟩ := encode_length wf
  refine ⟨wf, spelling, ?_, ?_, by omega, ?_⟩
  · rw [all, n_eq, List.take_left]
  · rw [all, n_eq, List.length_append]; omega
  · rw [Config.maxInstructionLength]; omega

/-! ### The rules of the prefixes -/

/-- Settles O27: the scan refuses the second of a group where it stands, and decode answers what the scan refuses. -/
theorem secondPrefixOfGroupRefused : Obligations.SecondPrefixOfGroupRefused := by
  intro ps p rest one seen
  have scan := scanPrefixes_repeated p rest ps [] one (by simp) (.inr seen)
  simp only [decode, scan]

/-- One of a group, in whatever order. -/
theorem onePerGroup_perm {ps qs : List PrefixByte} (perm : ps.Perm qs) (one : onePerGroup ps = true) :
    onePerGroup qs = true :=
  onePerGroup_iff_nodup.mpr ((perm.map _).nodup_iff.mp (onePerGroup_iff_nodup.mp one))

/-- Without an override the default segment stands (R57). -/
theorem segmentOf_eq_default (default : SReg) {ps : List PrefixByte} (none : ∀ r, .seg r ∉ ps) :
    segmentOf default ps = default := by
  induction ps with
  | nil => rfl
  | cons p ps ih =>
    have rest := ih fun r mem => none r (List.mem_cons_of_mem p mem)
    cases p with
    | seg r => exact absurd List.mem_cons_self (none r)
    | _ => exact rest

/-- The segment that prefixes select does not depend on their order (R57, D4). -/
theorem segmentOf_perm (default : SReg) {ps qs : List PrefixByte} (perm : ps.Perm qs) (one : onePerGroup ps = true) :
    segmentOf default ps = segmentOf default qs := by
  by_cases override : ∃ r, .seg r ∈ ps
  · obtain ⟨r, mem⟩ := override
    rw [segmentOf_eq_of_mem default r one mem,
      segmentOf_eq_of_mem default r (onePerGroup_perm perm one) (perm.mem_iff.mp mem)]
  · have none : ∀ r, .seg r ∉ ps := fun r mem => override ⟨r, mem⟩
    rw [segmentOf_eq_default default none, segmentOf_eq_default default fun r mem => none r (perm.mem_iff.mpr mem)]

/-- The sizes that prefixes select do not depend on their order (R89, D4). -/
theorem sizes_perm (A : Size) {ps qs : List PrefixByte} (perm : ps.Perm qs) :
    operandSizeOf A ps = operandSizeOf A qs ∧ addressSizeOf A ps = addressSizeOf A qs := by
  simp only [operandSizeOf, addressSizeOf, List.contains_iff_mem, perm.mem_iff, and_self]

/-- Settles O28: either order is read back from its own fields, and sizes and segment depend on which prefixes there are. -/
theorem prefixesAcceptedInAnyOrder : Obligations.PrefixesAcceptedInAnyOrder := by
  intro ps qs k rest nonempty perm one wf
  have oneQ := onePerGroup_perm perm one
  have length := perm.length_eq
  cases ps with
  | nil => exact absurd rfl nonempty
  | cons p more =>
    cases qs with
    | nil => cases length
    | cons q others =>
      exact ⟨instrOfFirst p more k, instrOfFirst q others k, decode_fields one wf rest,
        length ▸ decode_fields oneQ wf rest, by simp, by simp, by simp, by simp,
        fun A => sizes_perm A perm, fun d => segmentOf_perm d perm one⟩

/-- The other size is 48 less the size (R89, D3). -/
theorem Size.other_bits (A : Size) : A.other.bits = 48 - A.bits := by cases A <;> rfl

/-- Settles O29: each attribute by whether 66H or 67H is there. -/
theorem sizeAttributesFollowPrefixes : Obligations.SizeAttributesFollowPrefixes := by
  intro d ps
  simp only [operandSizeOf, addressSizeOf, List.contains_iff_mem, ← Size.other_bits, apply_ite Size.bits, and_self]

/-- Settles O30: the words of the table, each decoded by the model. -/
theorem tableRowsDecode : Obligations.TableRowsDecode :=
  ⟨rfl, rfl, rfl, rfl, rfl, rfl, rfl, rfl, rfl, rfl, rfl, rfl, rfl⟩

end Sys2Proof.Machine
end

section
/-! PROOF. The address specifier: decode of encode and encode of decode (Tables 17-2 to 17-4), its totality, and mod = 11. -/

namespace Sys2Proof.Machine

/-! ### The register codes that have a form of their own -/

theorem Base16.code_eq_six_iff (b : Base16) : b.code = 6 ↔ b = .bp := by cases b <;> decide

theorem GReg.code_eq_four_iff (r : GReg) : r.code = 4 ↔ r = .esp := by cases r <;> decide

theorem GReg.code_eq_five_iff (r : GReg) : r.code = 5 ↔ r = .ebp := by cases r <;> decide

/-! ### Each form is read back by the table of its size -/

theorem takeForm16_disp16 (d : Word) (rest : List Byte) :
    takeForm16 0 6 (wordBytes d ++ rest) = some (.disp16 d, rest) := by
  rw [takeForm16, if_pos (by decide), takeWord_bytes, Option.map_some]

theorem takeForm16_base16 {b : Base16} {d : Disp 16} (plain : ¬ (b = .bp ∧ d = .none)) (rest : List Byte) :
    takeForm16 d.md b.code (d.bytes wordBytes ++ rest) = some (.base16 b d, rest) := by
  rw [takeForm16, if_neg, takeDisp_bytes takeWord_bytes, Option.map_some, Base16.ofCode_code]
  rw [Disp.md_eq_zero_iff, Base16.code_eq_six_iff]
  exact fun h => plain h.symm

theorem takeForm32_disp32 (d : DWord) (rest : List Byte) :
    takeForm32 0 5 (dwordBytes d ++ rest) = some (.disp32 d, rest) := by
  unfold takeForm32
  rw [if_neg (by decide), if_pos (by decide), takeDWord_bytes, Option.map_some]

theorem takeForm32_base32 {b : GReg} {d : Disp 32} (noSib : b ≠ .esp) (plain : ¬ (b = .ebp ∧ d = .none)) (rest : List Byte) :
    takeForm32 d.md b.code (d.bytes dwordBytes ++ rest) = some (.base32 b d, rest) := by
  unfold takeForm32
  rw [if_neg ((GReg.code_eq_four_iff b).not.mpr noSib), if_neg, takeDisp_bytes takeDWord_bytes, Option.map_some,
    GReg.ofCode_code]
  rw [Disp.md_eq_zero_iff, GReg.code_eq_five_iff]
  exact fun h => plain h.symm

theorem takeForm32_sibDisp32 (ss : Scale) {x : Option GReg} (index : indexWf x = true) (d : DWord) (rest : List Byte) :
    takeForm32 0 4 (fieldsByte ss.code (indexCode x) 5 :: (dwordBytes d ++ rest)) = some (.sibDisp32 ss x d, rest) := by
  unfold takeForm32
  dsimp only
  rw [if_pos rfl, lowField_fieldsByte, if_pos ⟨rfl, rfl⟩, takeDWord_bytes, Option.map_some, topField_fieldsByte,
    midField_fieldsByte, Scale.ofCode_code, indexOfCode_indexCode index]

theorem takeForm32_sib (ss : Scale) {x : Option GReg} {b : GReg} {d : Disp 32} (index : indexWf x = true)
    (plain : ¬ (b = .ebp ∧ d = .none)) (rest : List Byte) :
    takeForm32 d.md 4 (fieldsByte ss.code (indexCode x) b.code :: (d.bytes dwordBytes ++ rest)) =
      some (.sib ss x b d, rest) := by
  unfold takeForm32
  dsimp only
  rw [if_pos rfl, lowField_fieldsByte, if_neg, takeDisp_bytes takeDWord_bytes, Option.map_some, topField_fieldsByte,
    midField_fieldsByte, Scale.ofCode_code, indexOfCode_indexCode index, GReg.ofCode_code]
  rw [Disp.md_eq_zero_iff, GReg.code_eq_five_iff]
  exact fun h => plain h.symm

/-- A form the 16-bit table reads, after its ModR/M byte. -/
theorem takeAddrSpec_of_form16 {md : BitVec 2} (memory : md ≠ 3) (reg : BitVec 3) {rm : BitVec 3} {bytes left : List Byte}
    {f : RmForm} (form : takeForm16 md rm bytes = some (f, left)) :
    takeAddrSpec .s16 (fieldsByte md reg rm :: bytes) = some (⟨reg, f⟩, left) := by
  rw [takeAddrSpec_16 memory, form, Option.map_some]

/-- A form the 32-bit tables read, after its ModR/M byte. -/
theorem takeAddrSpec_of_form32 {md : BitVec 2} (memory : md ≠ 3) (reg : BitVec 3) {rm : BitVec 3} {bytes left : List Byte}
    {f : RmForm} (form : takeForm32 md rm bytes = some (f, left)) :
    takeAddrSpec .s32 (fieldsByte md reg rm :: bytes) = some (⟨reg, f⟩, left) := by
  rw [takeAddrSpec_32 memory, form, Option.map_some]

/-- Well-formedness leaves out the code whose row without a displacement is another form (R96, R99, R103). -/
theorem plainRow_iff {α : Type} [DecidableEq α] {w : Nat} {b c : α} {d : Disp w} :
    (!(b == c && d == .none)) = true ↔ ¬ (b = c ∧ d = .none) := by
  rw [Bool.not_eq_true', ← Bool.not_eq_true, Bool.and_eq_true, beq_iff_eq, beq_iff_eq]

/-- Settles O36: each form by the rule of its table row; that a form is well-formed rules out the codes that have a row of their
own. -/
theorem addrSpecDecodeInvertsEncode : Obligations.AddrSpecDecodeInvertsEncode := by
  intro A ⟨reg, f⟩ rest wf
  cases f with
  | reg r =>
    have register := takeAddrSpec_reg A reg r.code rest
    rwa [GReg.ofCode_code] at register
  | base16 b d =>
    simp only [AddrSpec.wf, RmForm.wf, Bool.and_eq_true, beq_iff_eq, plainRow_iff] at wf
    obtain ⟨rfl, plain⟩ := wf
    exact takeAddrSpec_of_form16 d.md_ne_three reg (takeForm16_base16 plain rest)
  | disp16 d =>
    simp only [AddrSpec.wf, RmForm.wf, beq_iff_eq] at wf
    subst wf
    exact takeAddrSpec_of_form16 (by decide) reg (takeForm16_disp16 d rest)
  | base32 b d =>
    simp only [AddrSpec.wf, RmForm.wf, Bool.and_eq_true, beq_iff_eq, bne_iff_ne, plainRow_iff] at wf
    obtain ⟨⟨rfl, noSib⟩, plain⟩ := wf
    exact takeAddrSpec_of_form32 d.md_ne_three reg (takeForm32_base32 noSib plain rest)
  | disp32 d =>
    simp only [AddrSpec.wf, RmForm.wf, beq_iff_eq] at wf
    subst wf
    exact takeAddrSpec_of_form32 (by decide) reg (takeForm32_disp32 d rest)
  | sib ss x b d =>
    simp only [AddrSpec.wf, RmForm.wf, Bool.and_eq_true, beq_iff_eq, plainRow_iff] at wf
    obtain ⟨⟨rfl, index⟩, plain⟩ := wf
    exact takeAddrSpec_of_form32 d.md_ne_three reg (takeForm32_sib ss index plain rest)
  | sibDisp32 ss x d =>
    simp only [AddrSpec.wf, RmForm.wf, Bool.and_eq_true, beq_iff_eq] at wf
    obtain ⟨rfl, index⟩ := wf
    exact takeAddrSpec_of_form32 (by decide) reg (takeForm32_sibDisp32 ss index d rest)

/-! ### What a table reads is a form of its size, and its bytes are those read -/

theorem takeForm16_encode {md : BitVec 2} {rm : BitVec 3} (memory : md ≠ 3) {bytes left : List Byte} {f : RmForm}
    (h : takeForm16 md rm bytes = some (f, left)) (reg : BitVec 3) :
    f.wf .s16 = true ∧ fieldsByte md reg rm :: bytes = encodeAddrSpec ⟨reg, f⟩ ++ left := by
  unfold takeForm16 at h
  split at h
  case isTrue alone =>
    obtain ⟨rfl, rfl⟩ := alone
    obtain ⟨⟨d, l⟩, taken, eq⟩ := Option.map_eq_some_iff.mp h
    cases eq
    exact ⟨rfl, by rw [takeWord_some taken]; rfl⟩
  case isFalse plain =>
    obtain ⟨⟨d, l⟩, taken, eq⟩ := Option.map_eq_some_iff.mp h
    cases eq
    obtain ⟨rfl, rfl⟩ := takeDisp_some (fun _ _ _ => takeWord_some) memory taken
    rw [Disp.md_eq_zero_iff, ← Base16.code_ofCode rm, Base16.code_eq_six_iff, and_comm, ← plainRow_iff] at plain
    exact ⟨plain, by simp [encodeAddrSpec]⟩

theorem takeForm32_encode {md : BitVec 2} {rm : BitVec 3} (memory : md ≠ 3) {bytes left : List Byte} {f : RmForm}
    (h : takeForm32 md rm bytes = some (f, left)) (reg : BitVec 3) :
    f.wf .s32 = true ∧ fieldsByte md reg rm :: bytes = encodeAddrSpec ⟨reg, f⟩ ++ left := by
  unfold takeForm32 at h
  split at h
  case isTrue sib =>
    subst sib
    cases bytes with
    | nil => cases h
    | cons s rest =>
      dsimp only at h
      split at h
      case isTrue alone =>
        obtain ⟨rfl, base⟩ := alone
        obtain ⟨⟨d, l⟩, taken, eq⟩ := Option.map_eq_some_iff.mp h
        cases eq
        rw [takeDWord_some taken, ← fieldsByte_eq s rfl base]
        exact ⟨by simp [RmForm.wf], by simp [encodeAddrSpec]⟩
      case isFalse plain =>
        obtain ⟨⟨d, l⟩, taken, eq⟩ := Option.map_eq_some_iff.mp h
        cases eq
        obtain ⟨rfl, rfl⟩ := takeDisp_some (fun _ _ _ => takeDWord_some) memory taken
        rw [Disp.md_eq_zero_iff, ← GReg.code_ofCode (lowField s), GReg.code_eq_five_iff, and_comm,
          ← plainRow_iff] at plain
        exact ⟨by simp [RmForm.wf, plain], by simp [encodeAddrSpec]⟩
  case isFalse noSib =>
    split at h
    case isTrue alone =>
      obtain ⟨rfl, rfl⟩ := alone
      obtain ⟨⟨d, l⟩, taken, eq⟩ := Option.map_eq_some_iff.mp h
      cases eq
      exact ⟨rfl, by rw [takeDWord_some taken]; rfl⟩
    case isFalse plain =>
      obtain ⟨⟨d, l⟩, taken, eq⟩ := Option.map_eq_some_iff.mp h
      cases eq
      obtain ⟨rfl, rfl⟩ := takeDisp_some (fun _ _ _ => takeDWord_some) memory taken
      rw [Disp.md_eq_zero_iff, ← GReg.code_ofCode rm, GReg.code_eq_five_iff, and_comm, ← plainRow_iff] at plain
      rw [← GReg.code_ofCode rm, GReg.code_eq_four_iff] at noSib
      exact ⟨by simp [RmForm.wf, noSib, plain], by simp [encodeAddrSpec]⟩

/-- Settles O37: a register by its code, a memory operand by the table of the address size. -/
theorem addrSpecEncodeInvertsDecode : Obligations.AddrSpecEncodeInvertsDecode := by
  intro A bytes left sp h
  cases bytes with
  | nil => cases h
  | cons m rest =>
    rw [takeAddrSpec_cons] at h
    split at h
    case isTrue register =>
      cases h
      have byte : fieldsByte 3 (midField m) (lowField m) = m := fieldsByte_eq m register rfl
      exact ⟨rfl, by simp only [encodeAddrSpec, GReg.code_ofCode, byte, List.singleton_append]⟩
    case isFalse memory =>
      obtain ⟨⟨f, l⟩, form, eq⟩ := Option.map_eq_some_iff.mp h
      cases eq
      rw [← fieldsByte_fields m, midField_fieldsByte]
      cases A with
      | s16 => exact takeForm16_encode memory form (midField m)
      | s32 => exact takeForm32_encode memory form (midField m)

/-! ### Totality -/

theorem takeWord_isSome {bytes : List Byte} (h : 2 ≤ bytes.length) : (takeWord bytes).isSome := by
  match bytes, h with
  | _ :: _ :: _, _ => rfl

theorem takeDWord_isSome {bytes : List Byte} (h : 4 ≤ bytes.length) : (takeDWord bytes).isSome := by
  match bytes, h with
  | _ :: _ :: _ :: _ :: _, _ => rfl

/-- A displacement is read where there are bytes for one of full width. -/
theorem takeDisp_isSome {w : Nat} {full : List Byte → Option (BitVec w × List Byte)} {bytes : List Byte} (md : BitVec 2)
    (nonempty : bytes ≠ []) (h : (full bytes).isSome) : (takeDisp full md bytes).isSome := by
  unfold takeDisp
  split
  · rfl
  · split
    · cases bytes with
      | nil => exact absurd rfl nonempty
      | cons b rest => rfl
    · rwa [Option.isSome_map]

theorem takeForm16_isSome (md : BitVec 2) (rm : BitVec 3) {bytes : List Byte} (h : 2 ≤ bytes.length) :
    (takeForm16 md rm bytes).isSome := by
  have word := takeWord_isSome h
  have nonempty : bytes ≠ [] := List.ne_nil_of_length_pos (by omega)
  unfold takeForm16
  split
  · rwa [Option.isSome_map]
  · rw [Option.isSome_map]; exact takeDisp_isSome md nonempty word

theorem takeForm32_isSome (md : BitVec 2) (rm : BitVec 3) {bytes : List Byte} (h : 5 ≤ bytes.length) :
    (takeForm32 md rm bytes).isSome := by
  have plain : ∀ l : List Byte, 4 ≤ l.length → (takeDWord l).isSome ∧ (takeDisp takeDWord md l).isSome := fun l hl =>
    ⟨takeDWord_isSome hl, takeDisp_isSome md (List.ne_nil_of_length_pos (by omega)) (takeDWord_isSome hl)⟩
  unfold takeForm32
  split
  · cases bytes with
    | nil => cases h
    | cons s rest =>
      obtain ⟨dword, disp⟩ := plain rest (by simpa using h)
      dsimp only
      split <;> simpa
  · obtain ⟨dword, disp⟩ := plain bytes (by omega)
    split <;> simpa

theorem takeAddrSpec_isSome (A : Size) {bytes : List Byte} (h : 6 ≤ bytes.length) : (takeAddrSpec A bytes).isSome := by
  cases bytes with
  | nil => cases h
  | cons m rest =>
    rw [List.length_cons] at h
    rw [takeAddrSpec_cons]
    split
    · rfl
    · rw [Option.isSome_map]
      cases A with
      | s16 => exact takeForm16_isSome _ _ (by omega)
      | s32 => exact takeForm32_isSome _ _ (by omega)

/-- The longest address specifier is ModR/M, SIB and a doubleword (R106). -/
theorem encodeAddrSpec_length (sp : AddrSpec) : 1 ≤ (encodeAddrSpec sp).length ∧ (encodeAddrSpec sp).length ≤ 6 := by
  have disp16 : ∀ d : Disp 16, (d.bytes wordBytes).length ≤ 2 := fun d => by
    cases d <;> simp [Disp.bytes, wordBytes]
  have disp32 : ∀ d : Disp 32, (d.bytes dwordBytes).length ≤ 4 := fun d => by
    cases d <;> simp [Disp.bytes, dwordBytes]
  obtain ⟨reg, f⟩ := sp
  cases f with
  | base16 b d => have := disp16 d; simp only [encodeAddrSpec, List.length_cons]; omega
  | base32 b d => have := disp32 d; simp only [encodeAddrSpec, List.length_cons]; omega
  | sib ss x b d => have := disp32 d; simp only [encodeAddrSpec, List.length_cons]; omega
  | _ => simp [encodeAddrSpec, wordBytes, dwordBytes]

/-- DecodeAddrSpec over an address specifier that is read (R106). -/
theorem decodeAddrSpec_of_taken {A : Size} {bytes left : List Byte} {sp : AddrSpec} (s : State)
    (taken : takeAddrSpec A bytes = some (sp, left)) :
    decodeAddrSpec A bytes s = some (sp.reg, RmForm.operand s sp.rm, bytes.length - left.length) := by
  rw [decodeAddrSpec, taken, Option.map_some]

/-- Settles O41: six bytes are enough for every form, and what is consumed is the form's encoding. -/
theorem addressSpecifierIsTotal : Obligations.AddressSpecifierIsTotal := by
  intro A s bytes h
  obtain ⟨⟨sp, left⟩, taken⟩ := Option.isSome_iff_exists.mp (takeAddrSpec_isSome A h)
  obtain ⟨-, split⟩ := addrSpecEncodeInvertsDecode A bytes left sp taken
  obtain ⟨least, most⟩ := encodeAddrSpec_length sp
  have consumed : bytes.length - left.length = (encodeAddrSpec sp).length := by rw [split, List.length_append]; omega
  refine ⟨sp.reg, RmForm.operand s sp.rm, (encodeAddrSpec sp).length, ?_, least, most⟩
  rw [decodeAddrSpec_of_taken s taken, consumed]

/-- Settles O40: the register of r/m, with one byte consumed. -/
theorem registerFormUnderBothSizes : Obligations.RegisterFormUnderBothSizes := by
  intro A s m rest register
  have taken := takeAddrSpec_cons A m rest
  rw [if_pos register] at taken
  rw [decodeAddrSpec_of_taken s taken, List.length_cons, Nat.add_sub_cancel_left]
  rfl

/-- Settles O42: which form is read depends on mod and r/m; the reg field is passed on beside it. -/
theorem regFieldNeverAffectsForm : Obligations.RegFieldNeverAffectsForm := by
  intro A m m' rest top low
  rw [takeAddrSpec_cons, takeAddrSpec_cons, top, low]
  split
  · rfl
  · rw [Option.map_map, Option.map_map]
    rfl

end Sys2Proof.Machine
end

section
/-! PROOF. CMC (R150 to R152) and the arms of the rows of prefixes (R84 to R88, R134, R151). -/

namespace Sys2Proof.Machine

/-! ### CMC -/

/-- The arm of CMC. -/
theorem exec_cmc (s : State) : exec .cmc s = .next (s.complementCarry.advance 1) := rfl

/-- Settles O1: the carry flag complemented and pc one further is the record update that R150 writes. -/
theorem cmcComplementsCarryAndAdvances : Obligations.CmcComplementsCarryAndAdvances := exec_cmc

/-- Settles O2: each register view and each byte of memory is one that the two updates of CMC leave alone. -/
theorem cmcFrame : Obligations.CmcFrame := by
  intro s t h
  obtain ⟨-, rfl⟩ := exec_next h
  exact ⟨fun r => ⟨rfl, rfl, rfl⟩, fun r => by simp, rfl, rfl, rfl, fun a => rfl⟩

/-- Settles O3: the complement of CF differs from it, and the complement of the complement is CF again. -/
theorem cmcTwiceRestoresCarry : Obligations.CmcTwiceRestoresCarry := fun s =>
  ⟨_, _, exec_cmc s, exec_cmc _, by simp, by simp⟩

/-- Settles O4: CMC reads no launch parameter. -/
theorem cmcSameInEveryMode : Obligations.CmcSameInEveryMode := fun s L =>
  ⟨_, _, exec_cmc s, exec_cmc { s with launch := L }, rfl⟩

/-! ### The rows of prefixes -/

/-- An instruction with prefixes is refused for the reason the first of them gives (R88, R134). -/
theorem exec_of_prefixes {i : Instr} {p : PrefixByte} {more : List PrefixByte} (h : i.prefixes = p :: more) (s : State) :
    exec i s = .refused (prefixRefusal p i.key) := by
  rw [← exec_spelling, Instr.spelling_eq h, exec_instrOfFirst]

/-- Before F5 the first of the prefixes is what is refused (R151). -/
theorem exec_prefixed_cmc {i : Instr} {p : PrefixByte} {more : List PrefixByte} {s : State}
    (h : i.prefixes = p :: more) (key : i.key = .one 0xF5) : exec i s = .refused (.prefixWithoutEffect p) := by
  rw [exec_of_prefixes h, key, prefixRefusal_cmc]

/-- Before any other opcode the opcode is what is refused (R134). -/
theorem exec_prefixed_other {i : Instr} {p : PrefixByte} {more : List PrefixByte} {op : OpcodeKey} {s : State}
    (h : i.prefixes = p :: more) (key : i.key = op) (other : op ≠ .one 0xF5) :
    exec i s = .refused (.undecodable (.opcodeNotInMap op)) := by
  rw [exec_of_prefixes h, key, prefixRefusal_other p other]

/-- Settles O5: the four rows of F3H, F2H and F0H, each by the first of its prefixes. -/
theorem instructionPrefixesAreRefused : Obligations.InstructionPrefixesAreRefused := fun _ _ _ =>
  ⟨fun key => ⟨exec_prefixed_cmc rfl key, exec_prefixed_cmc rfl key, exec_prefixed_cmc rfl key,
    exec_prefixed_cmc rfl key⟩,
   fun other => ⟨exec_prefixed_other rfl rfl other, exec_prefixed_other rfl rfl other, exec_prefixed_other rfl rfl other,
    exec_prefixed_other rfl rfl other⟩⟩

/-- Settles O6: the six segment overrides, each by the first of its prefixes. -/
theorem segmentOverridesAreRefused : Obligations.SegmentOverridesAreRefused := fun _ _ _ =>
  ⟨fun key => ⟨exec_prefixed_cmc rfl key, exec_prefixed_cmc rfl key, exec_prefixed_cmc rfl key,
    exec_prefixed_cmc rfl key, exec_prefixed_cmc rfl key, exec_prefixed_cmc rfl key⟩,
   fun other => ⟨exec_prefixed_other rfl rfl other, exec_prefixed_other rfl rfl other, exec_prefixed_other rfl rfl other,
    exec_prefixed_other rfl rfl other, exec_prefixed_other rfl rfl other, exec_prefixed_other rfl rfl other⟩⟩

/-- Settles O7: 66H and 67H, each by the first of its prefixes. -/
theorem sizeOverridesAreRefused : Obligations.SizeOverridesAreRefused := fun _ _ _ =>
  ⟨fun key => ⟨exec_prefixed_cmc rfl key, exec_prefixed_cmc rfl key⟩,
   fun other => ⟨exec_prefixed_other rfl rfl other, exec_prefixed_other rfl rfl other⟩⟩

end Sys2Proof.Machine
end

section
/-! PROOF. One step (R248): what it runs, what it refuses, when it ends the run, and what every step keeps. -/

namespace Sys2Proof.Machine

/-! ### A step by what its bytes decode to -/

theorem step_at_codeEnd {s : State} (h : s.pc = s.launch.codeEnd) : step s = .fault .runEnded := if_pos h

theorem step_of_decode_ok {s : State} {i : Instr} {n : Nat} (notEnd : s.pc ≠ s.launch.codeEnd)
    (decoded : decode s.fetchWindow.1 = .ok (i, n)) : step s = runDecoded i n s := by
  rw [step, if_neg notEnd, decoded]

theorem step_of_decode_error {s : State} {e : DecodeError} (notEnd : s.pc ≠ s.launch.codeEnd)
    (undecoded : decode s.fetchWindow.1 = .error e) : step s = (decodeStop e s.fetchWindow.2).outcome := by
  rw [step, if_neg notEnd, undecoded]

/-- An instruction that neither bound of R248 refuses is run. -/
theorem runDecoded_of_fits {i : Instr} {n : Nat} {s : State} (fits : s.pc.toNat + n ≤ s.codeSpan - 1)
    (inside : ¬ (s.pc.toNat < s.launch.codeEnd.toNat ∧ s.launch.codeEnd.toNat < s.pc.toNat + n)) :
    runDecoded i n s = exec i s := by
  rw [runDecoded, if_neg (by omega), if_neg inside]

/-- An instruction whose arm refuses it is refused, by the bounds or by the arm. -/
theorem runDecoded_refused {i : Instr} {s : State} {r : Refusal} (refused : exec i s = .refused r) (n : Nat) :
    ∃ r', runDecoded i n s = .refused r' := by
  unfold runDecoded
  split
  · exact ⟨_, rfl⟩
  · split
    · exact ⟨_, rfl⟩
    · exact ⟨r, refused⟩

/-- Settles O8: past the two bounds, the step is exec of the instruction decoded. -/
theorem stepRunsDecodedInstruction : Obligations.StepRunsDecodedInstruction := fun _ _ _ notEnd decoded fits inside =>
  (step_of_decode_ok notEnd decoded).trans (runDecoded_of_fits fits inside)

/-! ### The bytes at pc are the first of the fetch window -/

/-- Bytes at pc, as many as the format bounds an instruction by, stand at the front of the window (R82). -/
theorem State.fetchWindow_of_hasBytesAtPc {s : State} {bytes : List Byte} (bytesAtPc : s.HasBytesAtPc bytes)
    (span : s.pc.toNat + bytes.length ≤ s.codeSpan) (short : bytes.length ≤ Config.formatBound) :
    ∃ rest, s.fetchWindow.1 = bytes ++ rest :=
  State.fetchRun_of_get? short span bytesAtPc

/-- The front of bytes at pc lies at pc. -/
theorem State.HasBytesAtPc.left {s : State} {xs ys : List Byte} (h : s.HasBytesAtPc (xs ++ ys)) : s.HasBytesAtPc xs := by
  intro k b at_k
  obtain ⟨k_lt, -⟩ := List.getElem?_eq_some_iff.mp at_k
  exact h k b (by rw [List.getElem?_append_left k_lt, at_k])

/-- A well-formed instruction whose bytes lie at pc, inside the offset space, is the one decoded. -/
theorem decode_of_hasBytesAtPc {s : State} {i : Instr} (wf : i.wf = true) (bytesAtPc : s.HasBytesAtPc (encode i))
    (span : s.pc.toNat + (encode i).length ≤ s.codeSpan) :
    decode s.fetchWindow.1 = .ok (i.spelling, (encode i).length) := by
  obtain ⟨-, length⟩ := encode_length wf
  obtain ⟨rest, window⟩ := State.fetchWindow_of_hasBytesAtPc bytesAtPc span (by rw [Config.formatBound]; omega)
  rw [window]
  exact decodeInvertsEncode i rest wf

/-- F5 at pc, inside the offset space, is CMC. -/
theorem decode_of_cmc_at_pc {s : State} (span : s.pc.toNat + 1 ≤ s.codeSpan) (bytesAtPc : s.HasBytesAtPc [0xF5]) :
    decode s.fetchWindow.1 = .ok (.cmc, 1) :=
  decode_of_hasBytesAtPc (i := .cmc) (by decide) bytesAtPc span

/-- Settles O9: the instruction's bytes decode to it, up to the spelling of F3H, and the two spellings run alike. -/
theorem stepRunsEncodedInstruction : Obligations.StepRunsEncodedInstruction := by
  intro s i wf bytesAtPc notEnd fits inside
  have decoded := decode_of_hasBytesAtPc wf bytesAtPc (by omega)
  rw [step_of_decode_ok notEnd decoded, runDecoded_of_fits fits inside, exec_spelling]

/-- One byte at pc. -/
theorem State.hasBytesAtPc_singleton {s : State} {b : Byte} :
    s.HasBytesAtPc [b] ↔ Memory.get? s.mem (s.addr .cs s.pc.toNat) = some b := by
  refine ⟨fun h => h 0 b rfl, fun h k c at_k => ?_⟩
  cases k with
  | zero => cases at_k; exact h
  | succ k => simp at at_k

/-- Settles O10: a next state comes only from CMC, whose byte is then the first of the window; and F5 at pc, one byte long, neither
reaches a bound nor straddles CODE_END. -/
theorem stepAdvancesExactlyOnCmc : Obligations.StepAdvancesExactlyOnCmc := by
  intro s t
  constructor
  case mp =>
    intro h
    obtain ⟨notEnd, n, decoded, fits, rfl⟩ := step_next h
    obtain ⟨rfl, first⟩ := decode_cmc decoded
    rw [List.head?_eq_getElem?] at first
    obtain ⟨-, byte⟩ := State.get?_of_fetchRun first
    exact ⟨notEnd, fits, byte, rfl⟩
  case mpr =>
    rintro ⟨notEnd, fits, byte, rfl⟩
    have decoded := decode_of_cmc_at_pc (by omega) (State.hasBytesAtPc_singleton.mpr byte)
    rw [step_of_decode_ok notEnd decoded, runDecoded_of_fits fits (by omega), exec_cmc]
    rfl

/-! ### Faults -/

/-- Every outcome of a step but the end of the run: a next state, a refusal, or a stuck fetch. -/
theorem step_outcomes {s : State} (notEnd : s.pc ≠ s.launch.codeEnd) :
    (∃ t, step s = .next t) ∨ (∃ r, step s = .refused r) ∨ ∃ a, step s = .fault (.stuck a) := by
  rcases step_cases s with ⟨atEnd, _⟩ | ⟨-, ⟨e, -, stop⟩ | ⟨i, n, -, ⟨-, stop⟩ | ⟨-, -, -, stop⟩ | ⟨-, -, run⟩⟩⟩
  · exact absurd atEnd notEnd
  · rw [stop]
    exact .inr (decodeStop_outcome s e)
  · exact .inr (.inl ⟨_, stop⟩)
  · exact .inr (.inl ⟨_, stop⟩)
  · rcases exec_cases i s with ⟨-, next⟩ | ⟨p, more, -, refused⟩
    · exact .inl ⟨_, run.trans next⟩
    · exact .inr (.inl ⟨_, run.trans refused⟩)

/-- Settles O11: anywhere but at CODE_END a step has one of the other outcomes. -/
theorem runEndsExactlyAtCodeEnd : Obligations.RunEndsExactlyAtCodeEnd := by
  intro s
  refine ⟨fun ended => ?_, step_at_codeEnd⟩
  by_contra notEnd
  rcases step_outcomes notEnd with ⟨_, other⟩ | ⟨_, other⟩ | ⟨_, other⟩ <;> cases ended.symm.trans other

/-- Settles O18: the end of the run is no exception, and neither is any other outcome. -/
theorem noStepRaisesAnException : Obligations.NoStepRaisesAnException := by
  intro s name number code pc raised
  by_cases atEnd : s.pc = s.launch.codeEnd
  · cases raised.symm.trans (step_at_codeEnd atEnd)
  · rcases step_outcomes atEnd with ⟨_, other⟩ | ⟨_, other⟩ | ⟨_, other⟩ <;> cases raised.symm.trans other

/-- Settles O12: the fetch stops at its first byte, so that nothing decodes and the stop is the fetch's. -/
theorem stepStuckOutsideMemory : Obligations.StepStuckOutsideMemory := by
  intro s notEnd span outside
  have byte : s.fetchByte s.pc.toNat = .error (.fault (.stuck (s.addr .cs s.pc.toNat))) := by
    rw [State.fetchByte, if_neg (by omega), outside]
  have window : s.fetchWindow = ([], some (.fault (.stuck (s.addr .cs s.pc.toNat)))) := by
    rw [State.fetchWindow, Config.formatBound, State.fetchRun, byte]
  rw [step_of_decode_error (e := .truncated) notEnd (by rw [window]; rfl), window]
  rfl

/-! ### Refusals -/

/-- Bytes refused by name, not for want of more bytes, refuse the step by that name. -/
theorem step_undecodable {s : State} {e : DecodeError} (notEnd : s.pc ≠ s.launch.codeEnd)
    (undecoded : decode s.fetchWindow.1 = .error e) (named : e ≠ .truncated) : step s = .refused (.undecodable e) := by
  rw [step_of_decode_error notEnd undecoded]
  cases e with
  | truncated => exact absurd rfl named
  | _ => rfl

/-- A well-formed key outside OPCODE_MAP at pc refuses the step (R134). -/
theorem step_opcodeNotInMap {s : State} {k : OpcodeKey} (notEnd : s.pc ≠ s.launch.codeEnd)
    (span : s.pc.toNat + k.bytes.length ≤ s.codeSpan) (bytesAtPc : s.HasBytesAtPc k.bytes) (wf : k.wf = true)
    (other : k ≠ .one 0xF5) : step s = .refused (.undecodable (.opcodeNotInMap k)) := by
  obtain ⟨-, length⟩ := OpcodeKey.bytes_length k
  obtain ⟨rest, window⟩ := State.fetchWindow_of_hasBytesAtPc bytesAtPc span (by rw [Config.formatBound]; omega)
  exact step_undecodable notEnd (by rw [window]; exact decode_opcodeNotInMap wf other rest) (by simp)

/-- Settles O13: the byte is a well-formed key of one byte, and not the map's. -/
theorem unknownOpcodeRefused : Obligations.UnknownOpcodeRefused := by
  intro s b notEnd span bytesAtPc notPrefix notEscape notCmc
  have wf : (OpcodeKey.one b).wf = true := by
    rw [OpcodeKey.wf, Bool.and_eq_true, bne_iff_ne]
    exact ⟨by simpa using notPrefix, notEscape⟩
  exact step_opcodeNotInMap notEnd span bytesAtPc wf (by simpa using notCmc)

/-- Prefixes of which two are of one group: the second stands after prefixes that are one of a group. -/
theorem exists_repeat {ps : List PrefixByte} (many : onePerGroup ps = false) :
    ∃ qs p rs, ps = qs ++ p :: rs ∧ onePerGroup qs = true ∧ p.group ∈ qs.map PrefixByte.group := by
  induction ps using List.reverseRecOn with
  | nil => cases many
  | append_singleton ps p ih =>
    cases before : onePerGroup ps with
    | false =>
      obtain ⟨qs, q, rs, rfl, one, seen⟩ := ih before
      exact ⟨qs, q, rs ++ [p], by simp, one, seen⟩
    | true =>
      refine ⟨ps, p, [], rfl, before, ?_⟩
      by_contra fresh
      have nodup : ((ps ++ [p]).map PrefixByte.group).Nodup := by
        rw [List.map_append]
        exact List.nodup_append.mpr ⟨onePerGroup_iff_nodup.mp before, List.nodup_singleton _, by simpa using fresh⟩
      rw [onePerGroup_iff_nodup.mpr nodup] at many
      cases many

/-- Prefixes before a byte that is none, at pc: a repeated group refuses the step, else the scan takes all of them. -/
theorem scan_or_refused {s : State} {ps : List PrefixByte} {b : Byte} (notEnd : s.pc ≠ s.launch.codeEnd)
    (span : s.pc.toNat + ps.length + 1 ≤ s.codeSpan) (bytesAtPc : s.HasBytesAtPc (ps.map PrefixByte.byte ++ [b]))
    (notPrefix : PrefixByte.ofByte b = none) :
    (∃ r, step s = .refused r) ∨ ∃ rest, scanPrefixes [] s.fetchWindow.1 = .ok (ps, b :: rest) := by
  cases one : onePerGroup ps with
  | false =>
    obtain ⟨qs, p, rs, rfl, oneQ, seen⟩ := exists_repeat one
    have few := onePerGroup_length_le oneQ
    have front : s.HasBytesAtPc (qs.map PrefixByte.byte ++ [p.byte]) := by
      have : (qs ++ p :: rs).map PrefixByte.byte ++ [b] =
          (qs.map PrefixByte.byte ++ [p.byte]) ++ (rs.map PrefixByte.byte ++ [b]) := by simp
      rw [this] at bytesAtPc
      exact bytesAtPc.left
    obtain ⟨rest, window⟩ := State.fetchWindow_of_hasBytesAtPc front
      (by simp only [List.length_append, List.length_cons, List.length_map, List.length_nil] at span ⊢; omega)
      (by simp only [Config.formatBound, List.length_append, List.length_map, List.length_singleton]; omega)
    have undecoded : decode s.fetchWindow.1 = .error (.repeatedGroup p) := by
      rw [window, List.append_assoc]
      exact secondPrefixOfGroupRefused qs p rest oneQ seen
    exact .inl ⟨_, step_undecodable notEnd undecoded (by simp)⟩
  | true =>
    have few := onePerGroup_length_le one
    obtain ⟨rest, window⟩ := State.fetchWindow_of_hasBytesAtPc bytesAtPc
      (by simp only [List.length_append, List.length_map, List.length_singleton]; omega)
      (by simp only [Config.formatBound, List.length_append, List.length_map, List.length_singleton]; omega)
    refine .inr ⟨rest, ?_⟩
    rw [window, List.append_assoc]
    exact scanPrefixes_bytes notPrefix rest ps [] one (by simp)

/-- A prefixed instruction is refused, whatever the bounds (R88). -/
theorem step_of_prefixed {s : State} {p : PrefixByte} {more : List PrefixByte} {left rest : List Byte} {k : OpcodeKey}
    (notEnd : s.pc ≠ s.launch.codeEnd) (scan : scanPrefixes [] s.fetchWindow.1 = .ok (p :: more, left))
    (key : readKey opcodeMap left = .ok (k, rest)) : ∃ r, step s = .refused r := by
  rw [step_of_decode_ok notEnd (decode_of_scan scan key)]
  exact runDecoded_refused (exec_instrOfFirst p more k s) _

/-- Settles O14: 0FH with the byte after it is a key outside the map; and 0FH after prefixes, where none is repeated, is refused
alone if the bytes end, and else as the key of an instruction that has prefixes or is outside the map. -/
theorem twoByteOpcodeRefused : Obligations.TwoByteOpcodeRefused := by
  refine ⟨fun s b notEnd span bytesAtPc => step_opcodeNotInMap (k := .esc b) notEnd span bytesAtPc rfl (by simp), ?_⟩
  intro s ps notEnd span bytesAtPc
  rcases scan_or_refused notEnd span bytesAtPc (by decide) with refused | ⟨rest, scan⟩
  · exact refused
  · cases rest with
    | nil =>
      have undecoded : decode s.fetchWindow.1 = .error (.opcodeNotInMap (.one 0x0F)) := by
        simp only [decode, scan]; rfl
      exact ⟨_, step_undecodable notEnd undecoded (by simp)⟩
    | cons b rest =>
      cases ps with
      | nil =>
        have undecoded : decode s.fetchWindow.1 = .error (.opcodeNotInMap (.esc b)) := by
          simp only [decode, scan]; rfl
        exact ⟨_, step_undecodable notEnd undecoded (by simp)⟩
      | cons p more => exact step_of_prefixed notEnd scan (k := .esc b) (rest := rest) rfl

/-- Settles O15: a repeated group is refused where it stands, and else the prefixes are scanned off before F5 and the arm of the
first refuses. -/
theorem prefixedCmcRefused : Obligations.PrefixedCmcRefused := by
  intro s ps nonempty notEnd span bytesAtPc
  rcases scan_or_refused notEnd span bytesAtPc (by decide) with refused | ⟨rest, scan⟩
  · exact refused
  · cases ps with
    | nil => exact absurd rfl nonempty
    | cons p more => exact step_of_prefixed notEnd scan (k := .one 0xF5) (rest := rest) rfl

/-- Settles O16: CMC on the last offset has no successor offset. -/
theorem endOfOffsetSpaceRefused : Obligations.EndOfOffsetSpaceRefused := by
  intro s notEnd last bytesAtPc
  rw [step_of_decode_ok notEnd (decode_of_cmc_at_pc (by omega) bytesAtPc), runDecoded, if_pos (by omega)]

/-- Settles O17: the instruction decodes whole, and the second bound refuses it. -/
theorem straddlingInstructionRefused : Obligations.StraddlingInstructionRefused := by
  intro s i wf bytesAtPc after before fits
  have notEnd : s.pc ≠ s.launch.codeEnd := fun h => by rw [h] at after; omega
  have decoded := decode_of_hasBytesAtPc wf bytesAtPc (by omega)
  rw [step_of_decode_ok notEnd decoded, runDecoded, if_neg (by omega), if_pos ⟨after, before⟩]

/-! ### What every step keeps -/

/-- Settles O19: a next state has the memory of the one before, and its pc is the successor offset that was checked to fit. -/
theorem stepKeepsInvariant : Obligations.StepKeepsInvariant := by
  intro s t inv h
  obtain ⟨-, fits, -, rfl⟩ := (stepAdvancesExactlyOnCmc s t).mp h
  refine ⟨inv.memWf, ?_⟩
  have span : s.codeSpan ≤ 2 ^ 32 := by unfold State.codeSpan; cases s.launch.defaultOperandSize <;> decide
  have positive := s.codeSpan_pos
  have successor : (s.pc + 1).toNat = s.pc.toNat + 1 := by
    rw [BitVec.toNat_add]
    exact Nat.mod_eq_of_lt (show s.pc.toNat + 1 < 2 ^ 32 by omega)
  change (s.pc + 1).toNat < s.codeSpan
  omega

/-- Settles O22: the next state is the one before but for CF and pc. -/
theorem stepKeepsParametersAndMemory : Obligations.StepKeepsParametersAndMemory := by
  intro s t h
  obtain ⟨-, -, -, rfl⟩ := (stepAdvancesExactlyOnCmc s t).mp h
  exact ⟨rfl, rfl, rfl, rfl, rfl, rfl⟩

/-! ### Reset -/

/-- Settles O20: no byte is listed, and FFF0H is inside a 16-bit offset space. -/
theorem resetMeetsInvariant : Obligations.ResetMeetsInvariant := ⟨rfl, by decide⟩

/-- Settles O21: each value of the reset record; the registers that are zero by cases on their codes. -/
theorem resetValuesPresumed : Obligations.ResetValuesPresumed := by
  have segments : ∀ r, r ≠ .cs → State.reset.sreg r = 0 ∧ SegBases.get State.reset.launch.segBase r = 0 := by
    intro r notCs
    cases r with
    | cs => exact absurd rfl notCs
    | _ => exact ⟨rfl, rfl⟩
  have general : ∀ r, State.reset.r32 r = 0 := fun r => by cases r <;> rfl
  exact ⟨rfl, rfl, rfl, rfl, rfl, rfl, rfl, rfl, rfl, segments, general, rfl, rfl, fun _ => rfl⟩

end Sys2Proof.Machine
end

section
/-! PROOF. The decoder of R133: what it accepts is its fields in order, and the model's decoder refines it at the default map. -/

namespace Sys2Proof.Machine

/-! ### The parts of the decoder -/

/-- Reading an entry's address specifier takes its bytes off the front, and there are none where the entry has no ModR/M byte. -/
theorem takeSpec_ok {A : Size} {e : OpcodeEntry} {bytes left : List Byte} {spec : Option AddrSpec}
    (h : takeSpec A e bytes = .ok (spec, left)) : bytes = (spec.map encodeAddrSpec).getD [] ++ left := by
  unfold takeSpec at h
  split at h
  · split at h
    · rename_i sp rest taken
      cases h
      exact (addrSpecEncodeInvertsDecode A bytes left sp taken).2
    · cases h
  · cases h
    rfl

/-- What a form that refuses nothing says of the length and the prefixes (R82, R88). -/
theorem refusal_none {d : Descriptor} {spec : Option AddrSpec} {ps : List PrefixByte} {length : Nat}
    (h : d.refusal spec ps length = none) : length ≤ Config.maxInstructionLength ∧ ∀ p ∈ ps, d.admits p = true := by
  unfold Descriptor.refusal at h
  split at h
  · cases h
  · split at h
    · cases h
    · rename_i short
      rw [Option.map_eq_none_iff, List.find?_eq_none] at h
      exact ⟨by omega, fun p mem => by simpa using h p mem⟩

/-- A sequence of two readers answers only where both do. -/
theorem bind_ok {ε α β : Type} {x : Except ε α} {f : α → Except ε β} {r : β} (h : (x >>= f) = .ok r) :
    ∃ a, x = .ok a ∧ f a = .ok r := by
  cases x with
  | error e => cases h
  | ok a => exact ⟨a, rfl, h⟩

/-- Inversion of the decoder of R133: every part answers, and the decoded fields are those of the parts. -/
theorem decodeWith_ok {map : OpcodeMap} {op ad : Size} {bytes : List Byte} {d : Decoded}
    (h : decodeWith map op ad bytes = .ok d) :
    ∃ b1 b2 b3 e, scanPrefixes [] bytes = .ok (d.prefixes, b1) ∧ readKey map b1 = .ok (d.key, b2) ∧
      lookupKey map d.key = some e ∧ takeSpec d.addressSize e b2 = .ok (d.spec, b3) ∧
      d.desc.last.size d.operandSize d.addressSize ≤ b3.length ∧
      d.last = b3.take (d.desc.last.size d.operandSize d.addressSize) ∧
      d.length = bytes.length - b3.length + d.desc.last.size d.operandSize d.addressSize ∧
      d.desc.refusal d.spec d.prefixes d.length = none := by
  unfold decodeWith at h
  obtain ⟨⟨ps, b1⟩, scan, h⟩ := bind_ok h
  obtain ⟨⟨k, b2⟩, key, h⟩ := bind_ok h
  dsimp only at h
  split at h
  · cases h
  · rename_i e entry
    obtain ⟨⟨sp, b3⟩, spec, h⟩ := bind_ok h
    obtain ⟨f, form, h⟩ := bind_ok h
    dsimp only at h
    split at h
    · cases h
    · rename_i enough
      split at h
      · cases h
      · rename_i accepted
        cases h
        exact ⟨b1, b2, b3, e, scan, key, entry, spec, Nat.not_lt.mp enough, rfl, rfl, accepted⟩

/-- Settles O34: each part takes its bytes off the front of what the part before it left, so that what is consumed is the fields in
order; the bounds are what the form does not refuse. -/
theorem instructionIsItsFieldsInOrder : Obligations.InstructionIsItsFieldsInOrder := by
  intro map op ad bytes d h
  obtain ⟨b1, b2, b3, e, scan, key, -, spec, enough, last, length, accepted⟩ := decodeWith_ok h
  obtain ⟨prefixBytes, one, -, -⟩ := scanPrefixes_ok scan
  obtain ⟨keyBytes, -⟩ := readKey_ok key
  obtain ⟨short, admitted⟩ := refusal_none accepted
  generalize d.desc.last.size d.operandSize d.addressSize = n at *
  have front : bytes = d.prefixes.map PrefixByte.byte ++ d.key.bytes ++ ((d.spec.map encodeAddrSpec).getD []) ++ b3 := by
    rw [List.append_assoc, List.append_assoc, ← takeSpec_ok spec, ← keyBytes, ← prefixBytes]
  generalize d.prefixes.map PrefixByte.byte ++ d.key.bytes ++ ((d.spec.map encodeAddrSpec).getD []) = fields at *
  have consumed : d.length = fields.length + n := by rw [length, front, List.length_append]; omega
  refine ⟨?_, ?_, short, ?_, one, admitted⟩
  · rw [consumed, front, List.take_length_add_append, last]
  · rw [consumed, front, List.length_append]; omega
  · rw [last, List.length_take]; omega

/-! ### The default map -/

/-- At the default map the decoder of R133 refuses every key but F5 by name (R134). -/
theorem decodeWith_other {op ad : Size} {bytes left rest : List Byte} {ps : List PrefixByte} {k : OpcodeKey}
    (scan : scanPrefixes [] bytes = .ok (ps, left)) (key : readKey opcodeMap left = .ok (k, rest)) (other : k ≠ .one 0xF5) :
    decodeWith opcodeMap op ad bytes = .error (.opcodeNotInMap k) := by
  simp only [decodeWith, scan, key, lookupKey_opcodeMap, if_neg other, bind, Except.bind]

/-- The form of CMC refuses the first of the prefixes, whichever it is (R151). -/
theorem cmcDescriptor_refusal {ps : List PrefixByte} {n : Nat} (short : n ≤ Config.maxInstructionLength) :
    cmcDescriptor.refusal none ps n = ps.head?.map .prefixNotAdmitted := by
  have refuses : ∀ p : PrefixByte, cmcDescriptor.admits p = false := fun p => by cases p <;> rfl
  rw [Descriptor.refusal, Option.bind_none]
  dsimp only
  rw [if_neg (by omega)]
  cases ps with
  | nil => rfl
  | cons p more => rw [List.find?_cons_of_pos (by rw [refuses]; rfl)]; rfl

/-- CMC as the decoder of R133 reads it (R150). -/
def cmcDecoded (op ad : Size) : Decoded :=
  { key := .one 0xF5, desc := cmcDescriptor, prefixes := [], operandSize := op, addressSize := ad, spec := none, last := [],
    length := 1 }

/-- What the decoder of R133 answers on F5, after whatever prefixes: CMC if there is none, else the refusal of the first. -/
theorem decodeWith_cmc {op ad : Size} {bytes left rest : List Byte} {ps : List PrefixByte}
    (scan : scanPrefixes [] bytes = .ok (ps, left)) (key : readKey opcodeMap left = .ok (.one 0xF5, rest)) :
    decodeWith opcodeMap op ad bytes =
      ps.head?.elim (.ok (cmcDecoded op ad)) fun p => .error (.prefixNotAdmitted p) := by
  obtain ⟨prefixBytes, one, -, -⟩ := scanPrefixes_ok scan
  obtain ⟨keyBytes, -⟩ := readKey_ok key
  have length : bytes.length - rest.length = ps.length + 1 := by
    rw [prefixBytes, keyBytes]
    simp only [List.length_append, List.length_map, OpcodeKey.bytes, List.length_singleton]
    omega
  have few := onePerGroup_length_le one
  have refusal := cmcDescriptor_refusal (ps := ps) (n := ps.length + 1) (by rw [Config.maxInstructionLength]; omega)
  have spec : ∀ A, takeSpec A (.form cmcDescriptor) rest = .ok (none, rest) := fun _ => rfl
  simp only [decodeWith, scan, key, lookupKey_opcodeMap, spec, bind, Except.bind, if_true, OpcodeEntry.select]
  have noLast : ∀ A B, cmcDescriptor.last.size A B = 0 := fun _ _ => rfl
  simp only [noLast, length, Nat.add_zero, refusal, Nat.not_lt_zero, if_false, List.take_zero]
  cases ps <;> rfl

/-- Settles O33: on F5 alone both decoders read CMC; on any other key, and on F5 after prefixes, the decoder of R133 refuses for
the reason that the arm of the first of them gives. -/
theorem modelDecoderRefinesR133 : Obligations.ModelDecoderRefinesR133 := by
  intro op ad bytes
  refine ⟨fun d => ⟨fun h => ?accepted, ?readAsCmc⟩, fun i n s decoded notCmc => ?other⟩
  case accepted =>
    obtain ⟨b1, b2, b3, e, scan, key, entry, -⟩ := decodeWith_ok h
    by_cases cmc : d.key = .one 0xF5
    · rw [cmc] at key
      rw [decodeWith_cmc scan key] at h
      cases prefixes : d.prefixes with
      | nil =>
        rw [prefixes] at h scan
        cases h
        exact ⟨by simp only [decode, scan, key]; rfl, rfl⟩
      | cons p more => rw [prefixes] at h; cases h
    · rw [decodeWith_other scan key cmc] at h
      cases h
  case readAsCmc =>
    rintro ⟨decoded, rfl⟩
    obtain ⟨left, rest, scan, key, -⟩ := decode_ok decoded
    exact decodeWith_cmc scan key
  case other =>
    obtain ⟨left, rest, scan, key, -⟩ := decode_ok decoded
    cases prefixes : i.prefixes with
    | nil => exact absurd (Instr.eq_cmc prefixes) notCmc
    | cons p more =>
      rw [prefixes] at scan
      by_cases cmc : i.key = .one 0xF5
      · rw [cmc] at key
        exact ⟨_, decodeWith_cmc scan key, .inr ⟨p, rfl, exec_prefixed_cmc prefixes cmc⟩⟩
      · exact ⟨_, decodeWith_other scan key cmc, .inl (exec_prefixed_other prefixes rfl cmc)⟩

end Sys2Proof.Machine
end

section
/-! PROOF. DecodeAddrSpec against the pseudocode and the length table of R106 over natural numbers. -/

namespace Sys2Proof.Machine

/-! ### Displacements and registers as numbers -/

theorem leWord_toNat (b0 b1 : Byte) : (leWord b0 b1).toNat = b0.toNat + 256 * b1.toNat := by
  have := b0.isLt
  rw [leWord, BitVec.toNat_append, ← Nat.shiftLeft_add_eq_or_of_lt (by omega), Nat.shiftLeft_eq]
  omega

theorem leDWord_toNat (b0 b1 b2 b3 : Byte) :
    (leDWord b0 b1 b2 b3).toNat = b0.toNat + 256 * b1.toNat + 65536 * (b2.toNat + 256 * b3.toNat) := by
  have := b0.isLt
  have := b1.isLt
  have := b2.isLt
  rw [leDWord, BitVec.toNat_append, BitVec.toNat_append, BitVec.toNat_append,
    ← Nat.shiftLeft_add_eq_or_of_lt (by omega), ← Nat.shiftLeft_add_eq_or_of_lt (by omega),
    ← Nat.shiftLeft_add_eq_or_of_lt (by omega)]
  simp only [Nat.shiftLeft_eq]
  omega

/-- disp8 as it is added (R97, R99). -/
theorem signExtend_toNat {w : Nat} (wide : 8 ≤ w) (b : Byte) : (b.signExtend w).toNat = sextN w b.toNat := by
  have big : 256 ≤ 2 ^ w := Nat.pow_le_pow_right (n := 2) (by decide) wide
  have := b.isLt
  rw [BitVec.toNat_signExtend, BitVec.toNat_setWidth, Nat.mod_eq_of_lt (by omega), sextN, BitVec.msb_eq_decide]
  simp only [decide_eq_true_eq]
  split <;> split <;> omega

theorem r32N_code (s : State) (r : GReg) : r32N s r.code.toNat = (s.r32 r).toNat := by
  rw [r32N, BitVec.ofNat_toNat, BitVec.setWidth_eq, GReg.ofCode_code]

theorem r16N_code (s : State) (r : GReg) : r16N s r.code.toNat = (s.r16 r).toNat := by
  rw [r16N, r32N_code, State.r16, BitVec.extractLsb'_toNat, Nat.shiftRight_zero]

theorem byteN_drop (bytes : List Byte) (k j : Nat) : byteN (bytes.drop k) j = byteN bytes (k + j) := by
  rw [byteN, byteN, List.getD_eq_getElem?_getD, List.getD_eq_getElem?_getD, List.getElem?_drop]

/-- A full displacement of a word, read from byte k on: its number, and how far it reaches. -/
theorem takeWord_value {bytes left : List Byte} {k : Nat} {v : Word} (h : takeWord (bytes.drop k) = some (v, left)) :
    v.toNat = le2N bytes k ∧ bytes.length - left.length = k + 2 := by
  have value : ∀ l : List Byte, takeWord l = some (v, left) →
      v.toNat = byteN l 0 + 256 * byteN l 1 ∧ l.length = left.length + 2 := by
    intro l taken
    match l, taken with
    | b0 :: b1 :: _, rfl => exact ⟨leWord_toNat b0 b1, rfl⟩
  obtain ⟨number, length⟩ := value _ h
  rw [byteN_drop, byteN_drop] at number
  rw [List.length_drop] at length
  exact ⟨number, by omega⟩

/-- A full displacement of a doubleword, read from byte k on: its number, and how far it reaches. -/
theorem takeDWord_value {bytes left : List Byte} {k : Nat} {v : DWord} (h : takeDWord (bytes.drop k) = some (v, left)) :
    v.toNat = le4N bytes k ∧ bytes.length - left.length = k + 4 := by
  have value : ∀ l : List Byte, takeDWord l = some (v, left) →
      v.toNat = byteN l 0 + 256 * byteN l 1 + 65536 * (byteN l 2 + 256 * byteN l 3) ∧ l.length = left.length + 4 := by
    intro l taken
    match l, taken with
    | b0 :: b1 :: b2 :: b3 :: _, rfl => exact ⟨leDWord_toNat b0 b1 b2 b3, rfl⟩
  obtain ⟨number, length⟩ := value _ h
  rw [byteN_drop, byteN_drop, byteN_drop, byteN_drop] at number
  rw [List.length_drop] at length
  exact ⟨number, by omega⟩

/-- A displacement read from byte k on by its mod: its number and how far it reaches, given those of a full one (R97, R99). -/
theorem takeDisp_value {w : Nat} (wide : 8 ≤ w) {full : List Byte → Option (BitVec w × List Byte)} {md : BitVec 2}
    (memory : md ≠ 3) {bytes left : List Byte} {k c n : Nat} {d : Disp w} (start : k ≤ bytes.length)
    (value : ∀ v left, full (bytes.drop k) = some (v, left) → v.toNat = n ∧ bytes.length - left.length = k + c)
    (h : takeDisp full md (bytes.drop k) = some (d, left)) :
    (Disp.value d).toNat = (if md.toNat = 0 then 0 else if md.toNat = 1 then sextN w (byteN bytes k) else n) ∧
    bytes.length - left.length = k + (if md.toNat = 0 then 0 else if md.toNat = 1 then 1 else c) := by
  have mods : md = 0 ∨ md = 1 ∨ md = 2 := by clear h; revert memory; revert md; decide
  rcases mods with rfl | rfl | rfl
  · cases h
    rw [List.length_drop]
    exact ⟨rfl, show _ = k + 0 by omega⟩
  · have first := byteN_drop bytes k 0
    have length := List.length_drop (i := k) (l := bytes)
    cases rest : bytes.drop k with
    | nil => rw [rest] at h; cases h
    | cons b l =>
      rw [rest] at h first length
      cases h
      rw [List.length_cons] at length
      rw [Nat.add_zero] at first
      exact ⟨(signExtend_toNat wide b).trans (by rw [← first]; rfl), show _ = k + 1 by omega⟩
  · obtain ⟨⟨v, l⟩, taken, eq⟩ := Option.map_eq_some_iff.mp h
    cases eq
    exact value v left taken

/-! ### Address size 16 -/

/-- The memory operand that the pseudocode of R106 gives for A = 16: its segment (R98) and its address modulo 2^16. -/
def operand16N (s : State) (bytes : List Byte) : RmOperand :=
  .memory (if containsBp bytes then .ss else .ds) (BitVec.ofNat 32 ((sum16N s bytes + disp16N bytes) % 2 ^ 16))

theorem sum16N_code (s : State) {bytes : List Byte} {b : Base16} (rm : rmN bytes = b.code.toNat)
    (plain : ¬ (b = .bp ∧ modN bytes = 0)) : sum16N s bytes % 2 ^ 16 = (Base16.sum s b).toNat := by
  have one : ∀ r : GReg, r16N s r.code.toNat % 2 ^ 16 = (s.r16 r).toNat := fun r => by
    rw [r16N_code, Nat.mod_eq_of_lt (s.r16 r).isLt]
  have two : ∀ r q : GReg, (r16N s r.code.toNat + r16N s q.code.toNat) % 2 ^ 16 = (s.r16 r + s.r16 q).toNat := fun r q => by
    rw [r16N_code, r16N_code, BitVec.toNat_add]
  unfold sum16N
  rw [rm]
  cases b with
  | bxSi => exact two .ebx .esi
  | bxDi => exact two .ebx .edi
  | bpSi => exact two .ebp .esi
  | bpDi => exact two .ebp .edi
  | si => exact one .esi
  | di => exact one .edi
  | bp => exact (congrArg (· % 2 ^ 16) (if_neg fun zero => plain ⟨rfl, zero⟩)).trans (one .ebp)
  | bx => exact one .ebx

theorem containsBp_code {bytes : List Byte} {b : Base16} (rm : rmN bytes = b.code.toNat)
    (plain : ¬ (b = .bp ∧ modN bytes = 0)) : Base16.defaultSeg b = if containsBp bytes then .ss else .ds := by
  unfold containsBp
  rw [rm]
  cases b with
  | bp => simp [Base16.defaultSeg, Base16.code, show modN bytes ≠ 0 from fun zero => plain ⟨rfl, zero⟩]
  | _ => rfl

/-- The operand of a 16-bit form with registers is that of R106. -/
theorem operand_base16 (s : State) {bytes : List Byte} {b : Base16} {d : Disp 16} (rm : rmN bytes = b.code.toNat)
    (plain : ¬ (b = .bp ∧ modN bytes = 0)) (disp : (Disp.value d).toNat = disp16N bytes) :
    RmForm.operand s (.base16 b d) = operand16N s bytes := by
  rw [RmForm.operand, operand16N, containsBp_code rm plain]
  congr 1
  apply BitVec.eq_of_toNat_eq
  rw [BitVec.toNat_setWidth, BitVec.toNat_add, BitVec.toNat_ofNat, ← sum16N_code s rm plain, disp, Nat.mod_add_mod]

/-- disp16 alone has no register and a word of displacement (R96). -/
theorem disp16_alone (s : State) {bytes : List Byte} (rm : rmN bytes = 6) (md : modN bytes = 0) :
    containsBp bytes = false ∧ sum16N s bytes = 0 ∧ disp16N bytes = le2N bytes 1 ∧ length16N bytes = 1 + 2 := by
  simp [containsBp, sum16N, disp16N, length16N, rm, md]

/-- Where there are registers, mod alone says what displacement follows (R97). -/
theorem disp16_plain {bytes : List Byte} (plain : ¬ (rmN bytes = 6 ∧ modN bytes = 0)) :
    disp16N bytes = (if modN bytes = 0 then 0 else if modN bytes = 1 then sextN 16 (byteN bytes 1) else le2N bytes 1) ∧
    length16N bytes = 1 + (if modN bytes = 0 then 0 else if modN bytes = 1 then 1 else 2) := by
  rw [disp16N, length16N]
  by_cases zero : modN bytes = 0
  · simp [zero, show rmN bytes ≠ 6 from fun six => plain ⟨six, zero⟩]
  · by_cases one : modN bytes = 1
    · simp [one]
    · simp [zero, one]

/-- The operand of disp16 alone is that of R106. -/
theorem operand_disp16 (s : State) {bytes : List Byte} {v : Word} (rm : rmN bytes = 6) (md : modN bytes = 0)
    (value : v.toNat = le2N bytes 1) :
    RmForm.operand s (.disp16 v) = operand16N s bytes := by
  obtain ⟨bp, sum, disp, -⟩ := disp16_alone s rm md
  rw [RmForm.operand, operand16N, bp, sum, disp, ← value, Nat.zero_add, Nat.mod_eq_of_lt v.isLt]
  congr 1
  apply BitVec.eq_of_toNat_eq
  rw [BitVec.toNat_setWidth, BitVec.toNat_ofNat]

/-- What the 16-bit table reads after a ModR/M byte: disp16 alone, where no register is summed, or the registers of r/m with the
displacement that mod calls for; the operand and the length of R106. -/
theorem takeForm16_value (s : State) {m : Byte} {rest left : List Byte} {f : RmForm} (memory : topField m ≠ 3)
    (form : takeForm16 (topField m) (lowField m) rest = some (f, left)) :
    RmForm.operand s f = operand16N s (m :: rest) ∧ (m :: rest).length - left.length = length16N (m :: rest) := by
  have rm := rmN_cons m rest
  have md := modN_cons m rest
  unfold takeForm16 at form
  split at form
  case isTrue alone =>
    obtain ⟨top, low⟩ := alone
    rw [top] at md
    rw [low] at rm
    obtain ⟨⟨v, l⟩, word, eq⟩ := Option.map_eq_some_iff.mp form
    cases eq
    obtain ⟨value, reach⟩ := takeWord_value (bytes := m :: rest) (k := 1) word
    obtain ⟨-, -, -, table⟩ := disp16_alone s rm md
    exact ⟨operand_disp16 s rm md value, reach.trans table.symm⟩
  case isFalse plain =>
    obtain ⟨⟨d, l⟩, disp, eq⟩ := Option.map_eq_some_iff.mp form
    cases eq
    obtain ⟨value, reach⟩ := takeDisp_value (bytes := m :: rest) (k := 1) (by decide) memory (by simp)
      (fun v l => takeWord_value) disp
    have notAlone : ¬ (rmN (m :: rest) = 6 ∧ modN (m :: rest) = 0) := by
      rw [rm, md]
      exact fun ⟨six, zero⟩ => plain ⟨BitVec.eq_of_toNat_eq zero, BitVec.eq_of_toNat_eq six⟩
    rw [← md] at value reach
    refine ⟨operand_base16 s (by rw [Base16.code_ofCode, rm]) ?_ ?_, ?_⟩
    · rw [← Base16.code_eq_six_iff, Base16.code_ofCode]
      exact fun ⟨six, zero⟩ => notAlone ⟨by rw [rm, six]; rfl, zero⟩
    · exact value.trans (disp16_plain notAlone).1.symm
    · exact reach.trans (disp16_plain notAlone).2.symm

/-- Settles O38: three bytes are enough for every 16-bit form, which is read as R106 has it. -/
theorem addressSpecifier16 : Obligations.AddressSpecifier16 := by
  intro s bytes length notReg
  cases bytes with
  | nil => cases length
  | cons m rest =>
    have memory : topField m ≠ 3 := fun h => notReg (by rw [modN_cons, h]; rfl)
    have isSome := takeForm16_isSome (topField m) (lowField m) (bytes := rest) (by simpa using length)
    obtain ⟨⟨f, left⟩, form⟩ := Option.isSome_iff_exists.mp isSome
    have taken : takeAddrSpec .s16 (m :: rest) = some (⟨midField m, f⟩, left) := by
      rw [takeAddrSpec_cons, if_neg memory, form, Option.map_some]
    obtain ⟨operand, reach⟩ := takeForm16_value s memory form
    rw [decodeAddrSpec_of_taken s taken, operand, reach]
    rfl

end Sys2Proof.Machine
end

section
/-! PROOF. DecodeAddrSpec with 32-bit addressing against the pseudocode and the length table of R106. -/

namespace Sys2Proof.Machine

/-! ### The operand by the numbers of R106 -/

/-- The memory operand that the pseudocode of R106 gives for A = 32: its segment (R105, D7) and its address modulo 2^32. -/
def operand32N (s : State) (bytes : List Byte) : RmOperand :=
  .memory (if !noBase bytes && (baseCodeN bytes == 4 || baseCodeN bytes == 5) then .ss else .ds)
    (BitVec.ofNat 32 ((base32N s bytes + scaledN s bytes + disp32N bytes) % 2 ^ 32))

theorem defaultSeg32_ofCode : ∀ c : BitVec 3,
    defaultSeg32 (GReg.ofCode c) = if (c.toNat == 4 || c.toNat == 5) = true then .ss else .ds := by decide

/-- The operand of a form with a base register: base, scaled index and displacement (R104, R105). -/
theorem memory32_based (s : State) {bytes : List Byte} {c : BitVec 3} {x d : DWord} (code : baseCodeN bytes = c.toNat)
    (based : noBase bytes = false) (index : x.toNat = scaledN s bytes % 2 ^ 32) (disp : d.toNat = disp32N bytes) :
    RmOperand.memory (defaultSeg32 (GReg.ofCode c)) (s.r32 (GReg.ofCode c) + x + d) = operand32N s bytes := by
  have base : base32N s bytes = (s.r32 (GReg.ofCode c)).toNat := by
    rw [base32N, based, code, ← r32N_code, GReg.code_ofCode]
    rfl
  rw [operand32N, defaultSeg32_ofCode, based, code, Bool.not_false, Bool.true_and]
  congr 1
  apply BitVec.eq_of_toNat_eq
  rw [BitVec.toNat_add, BitVec.toNat_add, BitVec.toNat_ofNat, base, index, disp]
  omega

/-- The operand of a form with no base register: scaled index and displacement, in DS (R99, R103). -/
theorem memory32_unbased (s : State) {bytes : List Byte} {x d : DWord} (unbased : noBase bytes = true)
    (index : x.toNat = scaledN s bytes % 2 ^ 32) (disp : d.toNat = disp32N bytes) :
    RmOperand.memory .ds (x + d) = operand32N s bytes := by
  have base : base32N s bytes = 0 := by rw [base32N, unbased]; rfl
  rw [operand32N, unbased, Bool.not_true, Bool.false_and]
  congr 1
  apply BitVec.eq_of_toNat_eq
  rw [BitVec.toNat_add, BitVec.toNat_ofNat, base, index, disp]
  omega

/-! ### The SIB byte -/

theorem Scale.factor_toNat : ∀ c : BitVec 2, (Scale.factor (Scale.ofCode c)).toNat = 2 ^ c.toNat := by decide

/-- The scaled index of a SIB byte is X of R106 (R102). -/
theorem scaledIndex_toNat (s : State) {m b : Byte} {rest : List Byte} (sib : lowField m = 4) :
    (scaledIndex s (Scale.ofCode (topField b)) (indexOfCode (midField b))).toNat =
      scaledN s (m :: b :: rest) % 2 ^ 32 := by
  have sibHere : sibN (m :: b :: rest) = true := by rw [sibN, rmN_cons, sib]; rfl
  have index : indexN (m :: b :: rest) = (midField b).toNat := (midField_toNat b).symm
  have scale : ssN (m :: b :: rest) = (topField b).toNat := (topField_toNat b).symm
  rw [scaledN, sibHere, index, scale, Bool.true_and]
  by_cases none : midField b = 4
  · rw [none]; rfl
  · have code : (midField b).toNat ≠ 4 := fun four => none (BitVec.eq_of_toNat_eq four)
    rw [indexOfCode, if_neg none, if_pos (by simpa using code), scaledIndex, BitVec.toNat_mul, Scale.factor_toNat,
      ← r32N_code, GReg.code_ofCode]

/-! ### The displacement -/

/-- With no base register the displacement is a doubleword (R99, R103). -/
theorem disp32_unbased {bytes : List Byte} (unbased : noBase bytes = true) :
    disp32N bytes = le4N bytes (dispAtN bytes) ∧ length32N bytes = dispAtN bytes + 4 := by
  rw [disp32N, length32N, unbased]
  exact ⟨rfl, rfl⟩

/-- With a base register mod says what displacement follows (R99). -/
theorem disp32_based {bytes : List Byte} (based : noBase bytes = false) :
    disp32N bytes = (if modN bytes = 0 then 0 else if modN bytes = 1 then sextN 32 (byteN bytes (dispAtN bytes))
      else le4N bytes (dispAtN bytes)) ∧
    length32N bytes = dispAtN bytes + (if modN bytes = 0 then 0 else if modN bytes = 1 then 1 else 4) := by
  rw [disp32N, length32N, based]
  exact ⟨rfl, rfl⟩

/-- There is no base register for code 101 with mod = 00 (R99, R103). -/
theorem noBase_iff {bytes : List Byte} {c : BitVec 3} {md : BitVec 2} (code : baseCodeN bytes = c.toNat)
    (mod : modN bytes = md.toNat) : noBase bytes = true ↔ md = 0 ∧ c = 5 := by
  rw [noBase, Bool.and_eq_true, beq_iff_eq, beq_iff_eq, code, mod, and_comm]
  exact and_congr ⟨fun h => BitVec.eq_of_toNat_eq h, fun h => by rw [h]; rfl⟩
    ⟨fun h => BitVec.eq_of_toNat_eq h, fun h => by rw [h]; rfl⟩

/-! ### Address size 32 -/

/-- A form with no base register, its doubleword read from byte k on: the operand and the length of R106. -/
theorem unbased32_value (s : State) {bytes left : List Byte} {k : Nat} {x v : DWord} (unbased : noBase bytes = true)
    (start : dispAtN bytes = k) (index : x.toNat = scaledN s bytes % 2 ^ 32)
    (dword : takeDWord (bytes.drop k) = some (v, left)) :
    RmOperand.memory .ds (x + v) = operand32N s bytes ∧ bytes.length - left.length = length32N bytes := by
  obtain ⟨value, reach⟩ := takeDWord_value dword
  obtain ⟨disp, table⟩ := disp32_unbased unbased
  rw [start] at disp table
  exact ⟨memory32_unbased s unbased index (value.trans disp.symm), reach.trans table.symm⟩

/-- A form with a base register, its displacement read from byte k on: the operand and the length of R106. -/
theorem based32_value (s : State) {bytes left : List Byte} {k : Nat} {md : BitVec 2} {c : BitVec 3} {x : DWord} {d : Disp 32}
    (mod : modN bytes = md.toNat) (memory : md ≠ 3) (code : baseCodeN bytes = c.toNat) (based : ¬ noBase bytes = true)
    (start : dispAtN bytes = k) (inside : k ≤ bytes.length) (index : x.toNat = scaledN s bytes % 2 ^ 32)
    (taken : takeDisp takeDWord md (bytes.drop k) = some (d, left)) :
    RmOperand.memory (defaultSeg32 (GReg.ofCode c)) (s.r32 (GReg.ofCode c) + x + Disp.value d) = operand32N s bytes ∧
      bytes.length - left.length = length32N bytes := by
  rw [Bool.not_eq_true] at based
  obtain ⟨value, reach⟩ := takeDisp_value (by decide) memory inside (fun v l => takeDWord_value) taken
  obtain ⟨disp, table⟩ := disp32_based based
  rw [start, mod] at disp table
  exact ⟨memory32_based s code based index (value.trans disp.symm), reach.trans table.symm⟩

/-- What the table of the SIB byte reads (R101 to R103). -/
theorem takeForm32_value_sib (s : State) {m b : Byte} {tail left : List Byte} {f : RmForm} (memory : topField m ≠ 3)
    (sib : lowField m = 4) (form : takeForm32 (topField m) (lowField m) (b :: tail) = some (f, left)) :
    RmForm.operand s f = operand32N s (m :: b :: tail) ∧
      (m :: b :: tail).length - left.length = length32N (m :: b :: tail) := by
  have mod := modN_cons m (b :: tail)
  have sibHere : sibN (m :: b :: tail) = true := by rw [sibN, rmN_cons, sib]; rfl
  have start : dispAtN (m :: b :: tail) = 2 := by rw [dispAtN, sibHere]; rfl
  have code : baseCodeN (m :: b :: tail) = (lowField b).toNat := by
    rw [baseCodeN, sibHere]; exact (lowField_toNat b).symm
  have index := scaledIndex_toNat s (b := b) (rest := tail) sib
  unfold takeForm32 at form
  rw [if_pos sib] at form
  dsimp only at form
  split at form
  case isTrue alone =>
    obtain ⟨⟨d, l⟩, dword, eq⟩ := Option.map_eq_some_iff.mp form
    cases eq
    exact unbased32_value s ((noBase_iff code mod).mpr alone) start index dword
  case isFalse plain =>
    obtain ⟨⟨d, l⟩, taken, eq⟩ := Option.map_eq_some_iff.mp form
    cases eq
    exact based32_value s mod memory code ((noBase_iff code mod).not.mpr plain) start (by simp) index taken

/-- What the table without a SIB byte reads (R99), the scaled index being zero. -/
theorem takeForm32_value_plain (s : State) {m : Byte} {rest left : List Byte} {f : RmForm} (memory : topField m ≠ 3)
    (noSib : lowField m ≠ 4) (form : takeForm32 (topField m) (lowField m) rest = some (f, left)) :
    RmForm.operand s f = operand32N s (m :: rest) ∧ (m :: rest).length - left.length = length32N (m :: rest) := by
  have mod := modN_cons m rest
  have sibNone : sibN (m :: rest) = false := by
    rw [sibN, rmN_cons, beq_eq_false_iff_ne]
    exact fun four => noSib (BitVec.eq_of_toNat_eq four)
  have start : dispAtN (m :: rest) = 1 := by rw [dispAtN, sibNone]; rfl
  have code : baseCodeN (m :: rest) = (lowField m).toNat := by
    rw [baseCodeN, sibNone]; exact rmN_cons m rest
  have index : (0#32).toNat = scaledN s (m :: rest) % 2 ^ 32 := by rw [scaledN, sibNone]; rfl
  unfold takeForm32 at form
  rw [if_neg noSib] at form
  split at form
  case isTrue alone =>
    obtain ⟨⟨d, l⟩, dword, eq⟩ := Option.map_eq_some_iff.mp form
    cases eq
    have value := unbased32_value s ((noBase_iff code mod).mpr alone) start index dword
    rwa [BitVec.zero_add] at value
  case isFalse plain =>
    obtain ⟨⟨d, l⟩, taken, eq⟩ := Option.map_eq_some_iff.mp form
    cases eq
    have value := based32_value s mod memory code ((noBase_iff code mod).not.mpr plain) start (by simp) index taken
    rwa [BitVec.add_zero] at value

/-- What the 32-bit tables read after a ModR/M byte, with a SIB byte and without. -/
theorem takeForm32_value (s : State) {m : Byte} {rest left : List Byte} {f : RmForm} (memory : topField m ≠ 3)
    (form : takeForm32 (topField m) (lowField m) rest = some (f, left)) :
    RmForm.operand s f = operand32N s (m :: rest) ∧ (m :: rest).length - left.length = length32N (m :: rest) := by
  by_cases sib : lowField m = 4
  · cases rest with
    | nil => rw [sib] at form; cases form
    | cons b tail => exact takeForm32_value_sib s memory sib form
  · exact takeForm32_value_plain s memory sib form

/-- Settles O39: with and without a SIB byte, with and without a base register, by the numbers of R106. -/
theorem addressSpecifier32 : Obligations.AddressSpecifier32 := by
  intro s bytes length notReg
  cases bytes with
  | nil => cases length
  | cons m rest =>
    have memory : topField m ≠ 3 := fun h => notReg (by rw [modN_cons, h]; rfl)
    have isSome := takeForm32_isSome (topField m) (lowField m) (bytes := rest) (by simpa using length)
    obtain ⟨⟨f, left⟩, form⟩ := Option.isSome_iff_exists.mp isSome
    have taken : takeAddrSpec .s32 (m :: rest) = some (⟨midField m, f⟩, left) := by
      rw [takeAddrSpec_cons, if_neg memory, form, Option.map_some]
    obtain ⟨operand, reach⟩ := takeForm32_value s memory form
    rw [decodeAddrSpec_of_taken s taken, operand, reach]
    rfl

end Sys2Proof.Machine
end

section
/-! PROOF. The memory primitives (R54, R61, R68): when each answers and when it stops, what a read after a write gives, the frame of
a write, the loads of LIDT and LGDT (R30), and the host's placement of a table word. -/

namespace Sys2Proof.Machine

/-! ### The two primitives, past the offset space and within it -/

theorem State.memRead_past (s : State) {A : Size} (seg : SReg) {off n : Nat} (past : 2 ^ A.bits < off + n) :
    s.memRead A seg off n = .error (.refuse .pastOffsetSpace) := if_pos past

theorem State.memRead_within (s : State) {A : Size} (seg : SReg) {off n : Nat} (within : ¬ 2 ^ A.bits < off + n) :
    s.memRead A seg off n = (s.readBytes seg off n).map leValue := by
  rw [State.memRead, Size.span, if_neg within]
  cases s.readBytes seg off n <;> rfl

theorem State.memWrite_past (s : State) {A : Size} (seg : SReg) {off n : Nat} (v : Nat) (past : 2 ^ A.bits < off + n) :
    s.memWrite A seg off n v = .error (.refuse .pastOffsetSpace) := if_pos past

theorem State.memWrite_within (s : State) {A : Size} (seg : SReg) {off n : Nat} (v : Nat) (within : ¬ 2 ^ A.bits < off + n) :
    s.memWrite A seg off n v = (s.storeBytes seg off (leBytes n v)).map fun m => { s with mem := m } := by
  rw [State.memWrite, Size.span, if_neg within]
  cases s.storeBytes seg off (leBytes n v) <;> rfl

/-! ### When an access answers, is refused and is stuck -/

/-- Some byte of an access lies outside MEM. -/
def State.SomeOutside (s : State) (seg : SReg) (off n : Nat) : Prop :=
  ∃ k < n, Memory.get? s.mem (s.addr seg (off + k)) = none

theorem State.not_someOutside_iff {s : State} {seg : SReg} {off n : Nat} :
    ¬ s.SomeOutside seg off n ↔ ∀ k < n, (Memory.get? s.mem (s.addr seg (off + k))).isSome := by
  simp only [State.SomeOutside, not_exists, not_and, ← ne_eq, Option.isSome_iff_ne_none]

/-- The three outcomes of an access exclude each other, so that each is had exactly under its own condition (R68, D10, D11). -/
theorem access_outcomes {α : Type} {x : Except Stop α} {past outside : Prop}
    (refused : past → x = .error (.refuse .pastOffsetSpace))
    (stuck : ¬ past → outside → ∃ a, x = .error (.fault (.stuck a)))
    (answers : ¬ past → ¬ outside → ∃ r, x = .ok r) :
    ((∃ r, x = .ok r) ↔ ¬ past ∧ ¬ outside) ∧ (x = .error (.refuse .pastOffsetSpace) ↔ past) ∧
      ((∃ a, x = .error (.fault (.stuck a))) ↔ ¬ past ∧ outside) := by
  by_cases hp : past
  · simp [refused hp, hp]
  · by_cases ho : outside
    · obtain ⟨a, rfl⟩ := stuck hp ho
      simp [hp, ho]
    · obtain ⟨r, rfl⟩ := answers hp ho
      simp [hp, ho]

theorem State.readBytes_stuck {s : State} {seg : SReg} {off n : Nat} (outside : s.SomeOutside seg off n) :
    ∃ a, s.readBytes seg off n = .error (.fault (.stuck a)) := by
  cases read : s.readBytes seg off n with
  | error e =>
    obtain ⟨k, -, rfl, -⟩ := State.readBytes_error read
    exact ⟨_, rfl⟩
  | ok bs =>
    obtain ⟨k, k_lt, none⟩ := outside
    obtain ⟨length, byte⟩ := State.readBytes_ok read
    rw [byte k k_lt, List.getElem?_eq_getElem (length ▸ k_lt)] at none
    cases none

theorem State.readBytes_answers {s : State} {seg : SReg} {off n : Nat} (inside : ¬ s.SomeOutside seg off n) :
    ∃ bs, s.readBytes seg off n = .ok bs := by
  cases read : s.readBytes seg off n with
  | error e =>
    obtain ⟨k, k_lt, -, none⟩ := State.readBytes_error read
    exact absurd ⟨k, k_lt, none⟩ inside
  | ok bs => exact ⟨bs, rfl⟩

theorem State.storeBytes_stuck {s : State} {seg : SReg} {off : Nat} {bs : List Byte}
    (outside : s.SomeOutside seg off bs.length) : ∃ a, s.storeBytes seg off bs = .error (.fault (.stuck a)) := by
  cases stored : s.storeBytes seg off bs with
  | error e =>
    obtain ⟨k, -, rfl, -⟩ := State.storeBytes_error stored
    exact ⟨_, rfl⟩
  | ok m => exact absurd outside (State.not_someOutside_iff.mpr fun k k_lt => State.get?_of_storeBytes stored k k_lt)

theorem State.storeBytes_answers {s : State} {seg : SReg} {off : Nat} {bs : List Byte}
    (inside : ¬ s.SomeOutside seg off bs.length) : ∃ m, s.storeBytes seg off bs = .ok m := by
  cases stored : s.storeBytes seg off bs with
  | error e =>
    obtain ⟨k, k_lt, -, none⟩ := State.storeBytes_error stored
    exact absurd ⟨k, k_lt, none⟩ inside
  | ok m => exact ⟨m, rfl⟩

/-- The outcomes of a read. -/
theorem State.memRead_outcomes (s : State) (A : Size) (seg : SReg) (off n : Nat) :
    ((∃ v, s.memRead A seg off n = .ok v) ↔ ¬ 2 ^ A.bits < off + n ∧ ¬ s.SomeOutside seg off n) ∧
    (s.memRead A seg off n = .error (.refuse .pastOffsetSpace) ↔ 2 ^ A.bits < off + n) ∧
    ((∃ a, s.memRead A seg off n = .error (.fault (.stuck a))) ↔ ¬ 2 ^ A.bits < off + n ∧ s.SomeOutside seg off n) := by
  refine access_outcomes (s.memRead_past seg) (fun within outside => ?_) (fun within inside => ?_)
  · obtain ⟨a, stuck⟩ := State.readBytes_stuck outside
    exact ⟨a, by rw [s.memRead_within seg within, stuck]; rfl⟩
  · obtain ⟨bs, read⟩ := State.readBytes_answers inside
    exact ⟨leValue bs, by rw [s.memRead_within seg within, read]; rfl⟩

/-- The outcomes of a write, under the same admission. -/
theorem State.memWrite_outcomes (s : State) (A : Size) (seg : SReg) (off n v : Nat) :
    ((∃ t, s.memWrite A seg off n v = .ok t) ↔ ¬ 2 ^ A.bits < off + n ∧ ¬ s.SomeOutside seg off n) ∧
    (s.memWrite A seg off n v = .error (.refuse .pastOffsetSpace) ↔ 2 ^ A.bits < off + n) ∧
    ((∃ a, s.memWrite A seg off n v = .error (.fault (.stuck a))) ↔
      ¬ 2 ^ A.bits < off + n ∧ s.SomeOutside seg off n) := by
  refine access_outcomes (s.memWrite_past seg v) (fun within outside => ?_) (fun within inside => ?_)
  · obtain ⟨a, stuck⟩ := State.storeBytes_stuck (bs := leBytes n v) (by rwa [leBytes_length])
    exact ⟨a, by rw [s.memWrite_within seg v within, stuck]; rfl⟩
  · obtain ⟨m, stored⟩ := State.storeBytes_answers (bs := leBytes n v) (by rwa [leBytes_length])
    exact ⟨{ s with mem := m }, by rw [s.memWrite_within seg v within, stored]; rfl⟩

/-- Settles O52: the value is that of the bytes read, each byte the one at its address. -/
theorem memReadIsLittleEndian : Obligations.MemReadIsLittleEndian := by
  intro s A seg off n within inside
  obtain ⟨bs, read⟩ := State.readBytes_answers (State.not_someOutside_iff.mpr inside)
  obtain ⟨rfl, byte⟩ := State.readBytes_ok read
  refine ⟨leValue bs, State.memRead_ok_iff.mpr ⟨within, bs, read, rfl⟩, leValue_lt bs, fun k k_lt => ?_⟩
  rw [byte k k_lt, leValue_get bs k k_lt, List.getElem?_eq_getElem k_lt]

/-- Settles O53: two of the three outcomes of a read. -/
theorem memReadStops : Obligations.MemReadStops := by
  intro s A seg off n
  obtain ⟨-, refused, stuck⟩ := s.memRead_outcomes A seg off n
  rw [Nat.not_lt] at stuck
  exact ⟨refused, stuck⟩

/-- The bytes that a write stored are read back (R68). -/
theorem State.memRead_of_memWrite {s t : State} {A : Size} {seg : SReg} {off n v : Nat}
    (h : s.memWrite A seg off n v = .ok t) : t.memRead A seg off n = .ok (v % 256 ^ n) := by
  obtain ⟨within, m, stored, rfl⟩ := State.memWrite_ok h
  have fits : 2 ^ A.bits ≤ 2 ^ 32 := by cases A <;> decide
  have length := leBytes_length n v
  refine State.memRead_ok_iff.mpr ⟨within, leBytes n v, ?_, leValue_leBytes n v⟩
  conv_lhs => rw [← length]
  refine State.readBytes_of_get? fun k k_lt => ?_
  rw [List.getElem?_eq_getElem k_lt]
  exact State.get?_storeBytes (by omega) stored k k_lt

/-- Settles O54: the three outcomes of a write, and the bytes read back. -/
theorem memReadAfterWrite : Obligations.MemReadAfterWrite := by
  intro s A seg off n v
  obtain ⟨answers, refused, stuck⟩ := s.memWrite_outcomes A seg off n v
  rw [Nat.not_lt, State.not_someOutside_iff] at answers
  rw [Nat.not_lt] at stuck
  exact ⟨answers, refused, stuck, fun t => State.memRead_of_memWrite⟩

/-- Settles O55: a write stores bytes, and storing them keeps the rest of memory, its domain and its form. -/
theorem memWriteFrame : Obligations.MemWriteFrame := by
  intro s t A seg off n v h
  obtain ⟨-, m, stored, rfl⟩ := State.memWrite_ok h
  obtain ⟨wf, domain, frame⟩ := State.storeBytes_ok stored
  rw [leBytes_length] at frame
  exact ⟨frame, domain, wf, rfl⟩

/-- Settles O51: the base of each segment register by its own field. -/
theorem addressIsBasePlusOffset : Obligations.AddressIsBasePlusOffset := fun s seg off => by
  cases seg <;> rfl

/-! ### The loads of LIDT and LGDT -/

/-- Two reads side by side are one read. -/
theorem State.readBytes_append {s : State} {seg : SReg} {off m n : Nat} {xs ys : List Byte}
    (first : s.readBytes seg off m = .ok xs) (second : s.readBytes seg (off + m) n = .ok ys) :
    s.readBytes seg off (m + n) = .ok (xs ++ ys) := by
  obtain ⟨rfl, firstByte⟩ := State.readBytes_ok first
  obtain ⟨rfl, secondByte⟩ := State.readBytes_ok second
  rw [← List.length_append]
  refine State.readBytes_of_get? fun k k_lt => ?_
  rw [List.length_append] at k_lt
  rcases Nat.lt_or_ge k xs.length with before | after
  · rw [List.getElem?_append_left before, firstByte k before]
  · rw [List.getElem?_append_right after, ← secondByte (k - xs.length) (by omega)]
    congr 2
    omega

/-- The limit word and the base doubleword after it (R30, D25). -/
theorem State.readTable_of_memRead {s : State} {A : Size} {seg : SReg} {off limit base : Nat}
    (word : s.memRead A seg off 2 = .ok limit) (dword : s.memRead A seg (off + 2) 4 = .ok base) :
    s.readTable A seg off = .ok ⟨BitVec.ofNat 16 limit, BitVec.ofNat 32 base⟩ := by
  obtain ⟨-, xs, first, rfl⟩ := State.memRead_ok_iff.mp word
  obtain ⟨within, ys, second, rfl⟩ := State.memRead_ok_iff.mp dword
  have six : s.memRead A seg off 6 = .ok (leValue xs + 256 ^ 2 * leValue ys) := by
    obtain ⟨length, -⟩ := State.readBytes_ok first
    rw [← length, ← leValue_append]
    exact State.memRead_ok_iff.mpr ⟨by omega, _, State.readBytes_append first second, rfl⟩
  have small : leValue xs < 256 ^ 2 := by
    obtain ⟨length, -⟩ := State.readBytes_ok first
    exact length ▸ leValue_lt xs
  have limit : BitVec.ofNat 16 (leValue xs + 256 ^ 2 * leValue ys) = BitVec.ofNat 16 (leValue xs) := by
    apply BitVec.eq_of_toNat_eq
    simp only [BitVec.toNat_ofNat]
    omega
  have base : (leValue xs + 256 ^ 2 * leValue ys) / 2 ^ 16 = leValue ys := by omega
  rw [State.readTable, six]
  dsimp only
  rw [limit, base]

/-- Settles O56: both loads put what the table read gives into their own register. -/
theorem tableLoadsSetLimitAndBase : Obligations.TableLoadsSetLimitAndBase := by
  intro s A seg off limit base _ word dword
  have table := State.readTable_of_memRead word dword
  exact ⟨by rw [State.loadIdtr, table], by rw [State.loadGdtr, table]⟩

/-! ### Placing a table word -/

/-- The bytes placed lie at their addresses, as many as there are different addresses. -/
theorem State.get?_placeCode (s : State) {off : Nat} {bs : List Byte} (fits : bs.length ≤ 2 ^ 32) {k : Nat} {b : Byte}
    (byte : bs[k]? = some b) : Memory.get? (s.placeCode off bs) (s.addr .cs (off + k)) = some b := by
  induction bs generalizing off k with
  | nil => cases byte
  | cons c bs ih =>
    rw [List.length_cons] at fits
    cases k with
    | zero => cases byte; exact Memory.get?_put_same ..
    | succ k =>
      have k_lt : k < bs.length := by
        obtain ⟨h, -⟩ := List.getElem?_eq_some_iff.mp byte
        simpa using h
      have other : s.addr .cs (off + (k + 1)) ≠ s.addr .cs off := s.addr_ne .cs (j := 0) (by omega) (by omega) (by omega)
      have next := ih (off := off + 1) (by omega) (by simpa using byte)
      rw [State.placeCode, Memory.get?_put_ne _ _ other]
      rwa [Nat.add_assoc, Nat.add_comm 1 k] at next

theorem State.wf_placeCode {s : State} (wf : Memory.wf s.mem = true) (off : Nat) (bs : List Byte) :
    Memory.wf (s.placeCode off bs) = true := by
  induction bs generalizing off with
  | nil => exact wf
  | cons b bs ih => exact Memory.wf_put _ _ _ (ih (off + 1)) (s.addr_lt ..)

theorem tableBytes_length (nbits w : Nat) : (tableBytes nbits w).length = Config.maxInstructionLength := by
  rw [tableBytes, List.length_map, List.length_range]

theorem State.withFetchWord_pc (s : State) (nbits w : Nat) : (s.withFetchWord nbits w).pc = s.pc := by
  simp only [State.withFetchWord]

theorem State.withFetchWord_mem (s : State) (nbits w : Nat) :
    (s.withFetchWord nbits w).mem = s.placeCode s.pc.toNat (tableBytes nbits w) := by
  simp only [State.withFetchWord]

theorem State.withFetchWord_addr (s : State) (nbits w : Nat) (seg : SReg) (off : Nat) :
    (s.withFetchWord nbits w).addr seg off = s.addr seg off := by
  simp only [State.addr, State.withFetchWord]

/-- Settles O23: the bytes are placed at the addresses that the next step fetches from, one byte at a time. -/
theorem placedWordLiesAtPc : Obligations.PlacedWordLiesAtPc := by
  intro s nbits w
  constructor
  · intro k b byte
    rw [State.withFetchWord_mem, State.withFetchWord_addr, State.withFetchWord_pc]
    exact s.get?_placeCode (by rw [tableBytes_length]; decide) byte
  · intro wf
    rw [State.withFetchWord_mem]
    exact State.wf_placeCode wf _ _

end Sys2Proof.Machine
end

section
/-! PROOF. The registers (R20 to R24, R28): words, bytes and segment registers after a write, BIT of a register, register codes. -/

namespace Sys2Proof.Machine

/-! ### Words and doublewords -/

theorem State.r16_toNat (s : State) (r : GReg) : (s.r16 r).toNat = (s.r32 r).toNat % 2 ^ 16 := by
  rw [State.r16, BitVec.extractLsb'_toNat, Nat.shiftRight_zero]

/-- Settles O46: the cell of a word write is its old upper half before the word, and every other cell is kept. -/
theorem wordWriteKeepsUpperHalf : Obligations.WordWriteKeepsUpperHalf := by
  intro s r v w
  have word : (s.setR16 r v).r16 r = v := by
    rw [State.r16, State.r32_setR16_same, BitVec.extractLsb'_append_eq_right]
  have upper : ((s.setR16 r v).r32 r).extractLsb' 16 16 = (s.r32 r).extractLsb' 16 16 := by
    rw [State.r32_setR16_same, BitVec.extractLsb'_append_eq_left]
  exact ⟨s.r16_toNat r, word, upper, fun q other => s.r32_setR16_ne v other, rfl, s.r32_setR32_same r w,
    fun q other => s.r32_setR32_ne w other, rfl⟩

/-! ### Bytes -/

theorem State.r8_toNat_low (s : State) {r : GReg} (low : GReg.byteHigh r = false) :
    (s.r8 r).toNat = (s.r32 (GReg.byteCell r)).toNat % 256 := by
  rw [State.r8, low, if_neg Bool.false_ne_true, BitVec.extractLsb'_toNat, Nat.shiftRight_zero]

theorem State.r8_toNat_high (s : State) {r : GReg} (high : GReg.byteHigh r = true) :
    (s.r8 r).toNat = (s.r32 (GReg.byteCell r)).toNat / 256 % 256 := by
  rw [State.r8, high, if_pos rfl, BitVec.extractLsb'_toNat, Nat.shiftRight_eq_div_pow]

/-- AL, CL, DL, BL and AH, CH, DH, BH lie in EAX, ECX, EDX, EBX (R22). -/
theorem byte_places : ∀ x ∈ [(GReg.eax, GReg.esp), (.ecx, .ebp), (.edx, .esi), (.ebx, .edi)],
    GReg.byteHigh x.1 = false ∧ GReg.byteCell x.1 = x.1 ∧ GReg.byteHigh x.2 = true ∧ GReg.byteCell x.2 = x.1 := by decide

/-- The byte written reads as the value: its bits are the ones that the write replaced. -/
theorem State.r8_setR8_same (s : State) (r : GReg) (v : Byte) : (s.setR8 r v).r8 r = v := by
  apply BitVec.eq_of_getLsbD_eq
  intro i hi
  rw [State.r8_getLsbD _ _ _ hi, State.r32_setR8_getLsbD _ _ _ _ (by split <;> omega)]
  cases GReg.byteHigh r with
  | true => simp [hi, show 8 + i < 16 by omega]
  | false => simp [hi]

/-- Every other byte register is kept: it lies in another cell, or in the other half of the low word of the same one. -/
theorem State.r8_setR8_ne (s : State) {r q : GReg} (v : Byte) (other : q ≠ r) : (s.setR8 r v).r8 q = s.r8 q := by
  apply BitVec.eq_of_getLsbD_eq
  intro i hi
  rw [State.r8_getLsbD _ _ _ hi, State.r8_getLsbD _ _ _ hi]
  by_cases cell : GReg.byteCell q = GReg.byteCell r
  · have half : GReg.byteHigh q ≠ GReg.byteHigh r := fun same => other (GReg.byte_inj cell same)
    rw [cell, State.r32_setR8_getLsbD _ _ _ _ (by split <;> omega)]
    cases hr : GReg.byteHigh r with
    | true =>
      rw [hr, ne_eq, Bool.not_eq_true] at half
      rw [half]
      simp [show ¬ 8 ≤ i by omega]
    | false =>
      rw [hr, ne_eq, Bool.not_eq_false] at half
      rw [half]
      simp
  · rw [s.r32_setR8_ne v cell]

/-- Bits 31:16 of every doubleword register are kept by a byte write. -/
theorem State.upper_setR8 (s : State) (r q : GReg) (v : Byte) :
    ((s.setR8 r v).r32 q).extractLsb' 16 16 = (s.r32 q).extractLsb' 16 16 := by
  by_cases cell : q = GReg.byteCell r
  · subst cell
    apply BitVec.eq_of_getLsbD_eq
    intro i hi
    rw [BitVec.getLsbD_extractLsb', BitVec.getLsbD_extractLsb', State.r32_setR8_getLsbD _ _ _ _ (by omega),
      if_neg (show ¬ (8 ≤ 16 + i ∧ 16 + i < 16) by omega), if_neg (show ¬ 16 + i < 8 by omega), ite_self]
  · rw [s.r32_setR8_ne v cell]

/-- Settles O47: the places by the table of the byte codes, and the frame by the cell and the half that a byte register has. -/
theorem byteWriteChangesItsByteOnly : Obligations.ByteWriteChangesItsByteOnly := by
  refine ⟨fun s x mem => ?_, fun s r q v => ⟨?_, s.upper_setR8 r q v, rfl⟩⟩
  · obtain ⟨low, lowCell, high, highCell⟩ := byte_places x mem
    refine ⟨?_, ?_, fun v q other => ⟨s.r32_setR8_ne v ?_, s.r32_setR8_ne v ?_⟩⟩
    · rw [s.r8_toNat_low low, lowCell]
    · rw [s.r8_toNat_high high, highCell]
    · rwa [lowCell]
    · rwa [highCell]
  · split
    · rename_i same
      rw [same, s.r8_setR8_same]
    · rename_i other
      exact s.r8_setR8_ne v other

/-! ### Segment registers -/

theorem SReg.code_of_ofCode : ∀ c : BitVec 3, ∀ r ∈ SReg.ofCode c, r.code = c := by decide

/-- Settles O48: the two tables of codes are inverse, and a write changes the register it names. -/
theorem segmentRegisterCodesAndWrites : Obligations.SegmentRegisterCodesAndWrites := by
  refine ⟨fun r c => ⟨SReg.code_of_ofCode c r, ?_⟩, rfl, rfl, fun s r v => ⟨?_, fun q other => ?_, ?_⟩⟩
  · rintro rfl
    exact SReg.ofCode_code r
  · exact s.sreg_setSreg_same r v
  · exact s.sreg_setSreg_ne v other
  · cases r <;> rfl

/-! ### BIT of a register, and register codes in the opcode byte -/

/-- Settles O49: the one condition of R24, met and not met. -/
theorem bitOfRegister : Obligations.BitOfRegister := by
  intro w v k
  refine ⟨fun inside => ?_, fun outside => if_neg outside⟩
  rw [bitOfReg, if_pos inside, BitVec.testBit_toNat]

/-- Adding a register's code to XX does not leave the byte, for an XX with room for eight codes (R115). -/
theorem opcodeWithReg_toNat {xx : Byte} (r : GReg) (room : xx.toNat ≤ 248) :
    (opcodeWithReg xx r).toNat = xx.toNat + r.code.toNat := by
  have code := r.code.isLt
  rw [opcodeWithReg, BitVec.toNat_add, BitVec.toNat_setWidth]
  omega

/-- The code is recovered by subtracting XX (R115). -/
theorem regOfOpcode_opcodeWithReg {xx : Byte} (r : GReg) (room : xx.toNat ≤ 248) :
    regOfOpcode xx (opcodeWithReg xx r) = some r := by
  have code := r.code.isLt
  rw [regOfOpcode, opcodeWithReg_toNat r room, Nat.add_sub_cancel_left, if_pos (by omega), BitVec.ofNat_toNat,
    BitVec.setWidth_eq, GReg.ofCode_code]

/-- Settles O59: the table of codes both ways by computation, and XX plus the code read back. -/
theorem opcodeRegisterCode : Obligations.OpcodeRegisterCode :=
  ⟨rfl, rfl, fun _ r room => ⟨opcodeWithReg_toNat r room, regOfOpcode_opcodeWithReg r room⟩⟩

end Sys2Proof.Machine
end

section
/-! PROOF. The segment of a memory operand (R57), the target of rel8 (R116), the record of an exception (R207) and the clock counts
(R244, R245). -/

namespace Sys2Proof.Machine

/-- Settles O45: an override decides the segment, and without one the default stands; the rest of the operand is passed on. -/
theorem overrideChangesOnlyTheSegment : Obligations.OverrideChangesOnlyTheSegment := by
  intro ps one
  refine ⟨fun r mem => ⟨fun seg ea => ?_, fun q => rfl⟩, fun none o => ?_⟩
  · rw [RmOperand.override, segmentOf_eq_of_mem seg r one mem]
  · cases o with
    | register q => rfl
    | memory seg ea => rw [RmOperand.override, segmentOf_eq_default seg none]

/-- Settles O58: the displacement is the distance from the end of the instruction, and a byte holds those from -128 to 127. -/
theorem rel8CountsFromTheEnd : Obligations.Rel8CountsFromTheEnd := by
  intro pc L target
  constructor
  · rintro ⟨rel, rfl⟩
    have least := BitVec.le_toInt rel
    have most := BitVec.toInt_lt (x := rel)
    rw [relTarget]
    omega
  · rintro ⟨least, most⟩
    have distance : (BitVec.ofInt 8 (target - (pc.toNat + L))).toInt = target - (pc.toNat + L) := by
      rw [BitVec.toInt_ofInt]
      exact Int.bmod_eq_of_le (by omega) (by omega)
    exact ⟨BitVec.ofInt 8 (target - (pc.toNat + L)), by rw [relTarget, distance]; omega⟩

/-- Settles O25: what `raiseException` records. -/
theorem raiseRecordsNumberCodeAndPc : Obligations.RaiseRecordsNumberCodeAndPc := fun _ _ _ => rfl

/-- Settles O60: the cells of the two tables. -/
theorem clocksAsTranscribed : Obligations.ClocksAsTranscribed := ⟨rfl, rfl, rfl, rfl, rfl, rfl, rfl⟩

end Sys2Proof.Machine
end
